-- ==== Sys2Proof/Word.lean ====
section
/-! DEFINITION. The widths of the machine's data: bytes, words, the 12-bit address field, and the V register names. -/

namespace Sys2Proof

/-- A data register's or memory location's contents, unsigned 0..255 (10_state.md R13, 20_memory.md R34). -/
abbrev Byte := BitVec 8

/-- The width of `pc`, `I`, a stack entry and an instruction word (00_scope.md R2). -/
abbrev Word := BitVec 16

/-- The immediate `nnn`, `w[11:0]` (30_encoding.md R56). -/
abbrev Nnn := BitVec 12

/-- The name of a V register, V0..VF (10_state.md R13). -/
abbrev Reg := Fin 16

/-- The register that doubles as the flag (10_state.md R15). -/
abbrev regVF : Reg := 15

/-- The register BNNN adds (41_control_flow.md R85). -/
abbrev regV0 : Reg := 0

/-- The pixels of the display, pixel `p = x + y × 64` as bit `p` (10_state.md R27). -/
abbrev Pixels := BitVec 2048

/-- The key state, key `k` as bit `k` (10_state.md R26). -/
abbrev Keys := BitVec 16

end Sys2Proof
end

