-- ==== Sys2Proof/Syntax.lean ====
section
/-! DEFINITION. The instructions: one constructor for each row of spec/opcode_table.json (30_encoding.md R58). -/

namespace Sys2Proof

/-- The 35 instructions. `x` and `y` name registers, `nn` is the byte immediate, `nnn` the 12-bit address, `n` the row
count of DXYN (30_encoding.md R56, R57). -/
inductive Instr where
  /-- 0000 NOP -/
  | nop
  /-- 00E0 CLS -/
  | cls
  /-- 00EE RET -/
  | ret
  /-- 1NNN JP nnn -/
  | jp (nnn : Nnn)
  /-- 2NNN CALL nnn -/
  | call (nnn : Nnn)
  /-- 3XNN SE Vx, nn -/
  | seImm (x : Reg) (nn : Byte)
  /-- 4XNN SNE Vx, nn -/
  | sneImm (x : Reg) (nn : Byte)
  /-- 5XY0 SE Vx, Vy -/
  | seReg (x y : Reg)
  /-- 6XNN LD Vx, nn -/
  | ldImm (x : Reg) (nn : Byte)
  /-- 7XNN ADD Vx, nn -/
  | addImm (x : Reg) (nn : Byte)
  /-- 8XY0 LD Vx, Vy -/
  | ldReg (x y : Reg)
  /-- 8XY1 OR Vx, Vy -/
  | orReg (x y : Reg)
  /-- 8XY2 AND Vx, Vy -/
  | andReg (x y : Reg)
  /-- 8XY3 XOR Vx, Vy -/
  | xorReg (x y : Reg)
  /-- 8XY4 ADD Vx, Vy -/
  | addReg (x y : Reg)
  /-- 8XY5 SUB Vx, Vy -/
  | sub (x y : Reg)
  /-- 8XY6 SHR Vx, Vy -/
  | shr (x y : Reg)
  /-- 8XY7 SUBN Vx, Vy -/
  | subn (x y : Reg)
  /-- 8XYE SHL Vx, Vy -/
  | shl (x y : Reg)
  /-- 9XY0 SNE Vx, Vy -/
  | sneReg (x y : Reg)
  /-- ANNN LD I, nnn -/
  | ldI (nnn : Nnn)
  /-- BNNN JP V0, nnn -/
  | jpV0 (nnn : Nnn)
  /-- CXNN RND Vx, nn -/
  | rnd (x : Reg) (nn : Byte)
  /-- DXYN DRW Vx, Vy, n -/
  | drw (x y : Reg) (n : Nat)
  /-- EX9E SKP Vx -/
  | skp (x : Reg)
  /-- EXA1 SKNP Vx -/
  | sknp (x : Reg)
  /-- FX07 LD Vx, DT -/
  | ldVxDT (x : Reg)
  /-- FX0A LD Vx, K -/
  | ldVxK (x : Reg)
  /-- FX15 LD DT, Vx -/
  | ldDTVx (x : Reg)
  /-- FX18 LD ST, Vx -/
  | ldSTVx (x : Reg)
  /-- FX1E ADD I, Vx -/
  | addI (x : Reg)
  /-- FX29 LD F, Vx -/
  | ldF (x : Reg)
  /-- FX33 LD B, Vx -/
  | ldB (x : Reg)
  /-- FX55 LD [I], Vx -/
  | stRegs (x : Reg)
  /-- FX65 LD Vx, [I] -/
  | ldRegs (x : Reg)
  deriving DecidableEq, Repr

end Sys2Proof
end

