-- ==== Sys2Proof/Config.lean ====
section
/-! DEFINITION. What the implementation fixes: the two OPEN parameters of the block, and the free value of CXNN. -/

namespace Sys2Proof

/-- The two parameters the spec leaves OPEN (00_scope.md R5, R6; 20_memory.md R38). A block is built with one value of
each; nothing the block or its host does changes them. The machine's step takes no argument but the state, so the state
carries them (its field `cfg`) and a claim about every state is a claim about every block. Logs 2 and 3. -/
structure Config where
  /-- `FONT`, the 80 bytes at 0..79 after reset: 16 glyphs of 5 bytes (20_memory.md R37, R38). -/
  font : Vector Byte 80
  /-- `SHIFT_USES_VY`: whether 8XY6 and 8XYE take their operand from VY (00_scope.md R6). -/
  shiftUsesVy : Bool
  deriving DecidableEq, Repr

/-- The random byte of the `k`-th execution of CXNN, a free value: the spec assumes nothing of a draw beyond its width
(00_scope.md R7, 42_alu.md R99). Log 4. -/
opaque Config.randomByte : Nat → Byte

end Sys2Proof
end

