-- ==== Sys2Proof/Machine/Font.lean ====
section
/-! DEFINITION. The default values of the two OPEN parameters: the conventional font and the documented shift. -/

namespace Sys2Proof.Machine

/-- The default glyphs of digits 0 to 7 (20_memory.md R38). PRESUMED: the spec marks the bytes as general knowledge. -/
def glyphs0to7 : List Byte :=
  [0xF0, 0x90, 0x90, 0x90, 0xF0] ++ [0x20, 0x60, 0x20, 0x20, 0x70] ++
  [0xF0, 0x10, 0xF0, 0x80, 0xF0] ++ [0xF0, 0x10, 0xF0, 0x10, 0xF0] ++
  [0x90, 0x90, 0xF0, 0x10, 0x10] ++ [0xF0, 0x80, 0xF0, 0x10, 0xF0] ++
  [0xF0, 0x80, 0xF0, 0x90, 0xF0] ++ [0xF0, 0x10, 0x20, 0x40, 0x40]

/-- The default glyphs of digits 8 to F (20_memory.md R38). PRESUMED, as above. -/
def glyphs8toF : List Byte :=
  [0xF0, 0x90, 0xF0, 0x90, 0xF0] ++ [0xF0, 0x90, 0xF0, 0x10, 0xF0] ++
  [0xF0, 0x90, 0xF0, 0x90, 0x90] ++ [0xE0, 0x90, 0xE0, 0x90, 0xE0] ++
  [0xF0, 0x80, 0x80, 0x80, 0xF0] ++ [0xE0, 0x90, 0x90, 0x90, 0xE0] ++
  [0xF0, 0x80, 0xF0, 0x80, 0xF0] ++ [0xF0, 0x80, 0xF0, 0x80, 0x80]

/-- The default `FONT` (20_memory.md R38). Log 2. -/
def defaultFont : Vector Byte 80 := ⟨(glyphs0to7 ++ glyphs8toF).toArray, rfl⟩

/-- The default parameters: the font of 20_memory.md R38, and `SHIFT_USES_VY = false` (00_scope.md R5, R6). Logs 2, 3. -/
def defaultConfig : Config := { font := defaultFont, shiftUsesVy := false }

end Sys2Proof.Machine
end

