-- ==== Sys2Proof/Machine/State.lean ====
section
/-! DEFINITION. The state of the block (10_state.md), as plain data, and its value after reset. -/

namespace Sys2Proof.Machine

/-- The five fault kinds (60_exceptions.md R115). "No fault" is `none` of an `Option FaultKind`. -/
inductive FaultKind where
  /-- A fetch or data access above 4095, or a key index above 15. -/
  | addressOutOfRange
  /-- LOAD_ROM of more than 3584 bytes. -/
  | programTooLarge
  /-- CALL with 16 return addresses on the stack. -/
  | stackOverflow
  /-- RET with an empty stack. -/
  | stackUnderflow
  /-- The fetched word matches no shape. -/
  | unknownOpcode
  deriving DecidableEq, Repr

/-- The run state `RUN` (10_state.md R29). -/
inductive RunState where
  | running
  | faulted
  deriving DecidableEq, Repr

/-- The fault record `FAULT = (kind, pc, word, addr)` (60_exceptions.md R117). -/
structure FaultRecord where
  kind : Option FaultKind
  pc : Word
  word : Word
  addr : Word
  deriving DecidableEq, Repr

/-- The record of a block that has not faulted: kind 0 and zeros (10_state.md R29). -/
def noFaultRecord : FaultRecord := { kind := none, pc := 0, word := 0, addr := 0 }

/-- The bytes of memory that differ from their reset contents: addresses strictly rising, no entry equal to what an
unlisted address reads as (`Memory.wf`, `Memory.initial`). -/
abbrev Memory := List Host.Cell

/-- Everything the spec gives the block (10_state.md R13 to R29), and below it the model's own three fields. -/
structure State where
  /-- `V[0]`..`V[15]`; `V[15]` is VF (R13, R15). -/
  v : Vector Byte 16
  /-- The program counter (R17). -/
  pc : Word
  /-- The index register `I` (R21). -/
  i : Word
  /-- The stack pointer `SP`, the number of return addresses held, 0..16 (R22). -/
  sp : Fin 17
  /-- The return addresses `S[0]`..`S[15]` (R23). -/
  stack : Vector Word 16
  /-- The delay timer (R24). -/
  dt : Byte
  /-- The sound timer (R25). -/
  st : Byte
  /-- The key state, key `k` as bit `k`, 1 = pressed (R26). -/
  keys : Keys
  /-- The display, pixel `x + y × 64` as that bit, 1 = lit (R27). -/
  disp : Pixels
  /-- The 4096 bytes of memory (R28). -/
  mem : Memory
  /-- `RUN` (R29). -/
  run : RunState
  /-- `FAULT` (R29). -/
  fault : FaultRecord
  /-- The model's own: how many random bytes CXNN has drawn. Log 4. -/
  draws : Nat
  /-- The model's own: the parameters the block is built with, which nothing writes. Logs 2 and 3. -/
  cfg : Config
  deriving DecidableEq, Repr

/-- Why the machine stops without a next state: it never does. Every fault of the spec is a described transition to the
Faulted run state (60_exceptions.md R118), which the model takes as a next state; so there is no constructor, nothing
raises one, and this is safe. Log 1. -/
inductive Fault where
  deriving DecidableEq, Repr

/-- Why the model has no meaning for an instruction. -/
inductive Refusal where
  /-- Raised by an arm of `exec` that has no meaning yet; safe. No arm is left so. -/
  | notModelled (mnemonic : String)
  deriving DecidableEq, Repr

/-- The block right after reset, built with the parameters `cfg` (10_state.md R32, 70_reset_and_hazards.md R128). Memory
lists nothing, so every byte has its reset contents: `FONT` at 0..79, 0 above. -/
def State.resetWith (cfg : Config) : State where
  v := Vector.replicate 16 0
  pc := 0x200
  i := 0
  sp := 0
  stack := Vector.replicate 16 0
  dt := 0
  st := 0
  keys := 0
  disp := 0
  mem := []
  run := .running
  fault := noFaultRecord
  draws := 0
  cfg := cfg

/-- The block right after reset, built with the default parameters (00_scope.md R5, R6; 20_memory.md R38). -/
def State.reset : State := State.resetWith defaultConfig

end Sys2Proof.Machine
end

