-- ==== Sys2Proof/Machine/Ops.lean ====
section
/-! DEFINITION. The operations the instructions share: memory (20_memory.md), registers, the stack, the display store,
fetch and advance (40_cycle.md), taking a fault and the way out of one (60_exceptions.md). -/

namespace Sys2Proof.Machine

/-! ## Memory (20_memory.md) -/

/-- What an address nothing has written reads as: its reset contents (10_state.md R32), the font at 0..79 and 0 above.
Log 5. -/
def Memory.initial (cfg : Config) (a : Nat) : Byte := if h : a < 80 then cfg.font[a] else 0

/-- The canonical form: addresses of the 4096-byte store, strictly rising, none listed with its reset contents. -/
abbrev Memory.wf (cfg : Config) (m : Memory) : Prop :=
  m.Pairwise (fun c d => c.1 < d.1) ∧ ∀ c ∈ m, c.1 < 4096 ∧ c.2 ≠ Memory.initial cfg c.1

/-- The listed byte at an address. -/
def Memory.find (a : Nat) : Memory → Option Byte
  | [] => none
  | c :: m => if c.1 = a then some c.2 else Memory.find a m

/-- List a byte at an address, in its place. -/
def Memory.insert (a : Nat) (b : Byte) : Memory → Memory
  | [] => [(a, b)]
  | c :: m =>
    if a < c.1 then (a, b) :: c :: m
    else if c.1 = a then (a, b) :: m
    else c :: Memory.insert a b m

/-- List no byte at an address. -/
def Memory.erase (a : Nat) (m : Memory) : Memory := m.filter (fun c => c.1 ≠ a)

/-- `read_byte` (20_memory.md R41), for an address in 0..4095. -/
def Memory.read (cfg : Config) (m : Memory) (a : Nat) : Byte := (Memory.find a m).getD (Memory.initial cfg a)

/-- `write_byte` (20_memory.md R41), for an address in 0..4095; it keeps the canonical form. -/
def Memory.write (cfg : Config) (m : Memory) (a : Nat) (b : Byte) : Memory :=
  if b = Memory.initial cfg a then Memory.erase a m else Memory.insert a b m

/-- `M[a]`. -/
def State.readByte (s : State) (a : Nat) : Byte := Memory.read s.cfg s.mem a

/-- `M[a] <- b`. -/
def State.writeByte (s : State) (a : Nat) (b : Byte) : State := { s with mem := Memory.write s.cfg s.mem a b }

/-- The bytes `M[a]`, `M[a+1]`, ..., `n` of them. -/
def State.readBytes (s : State) (a n : Nat) : List Byte := (List.range n).map (fun k => s.readByte (a + k))

/-- `M[a + k] <- bs[k]` for each `k`, at ascending addresses. -/
def State.writeBytes (s : State) (a : Nat) : List Byte → State
  | [] => s
  | b :: bs => (s.writeByte a b).writeBytes (a + 1) bs

/-- The range check of an access of `n` bytes based at `base` (20_memory.md R42, R43): the addresses do not wrap; an access
of no bytes checks nothing; a failing one reports its lowest offending address, `max(base, 4096)`
(60_exceptions.md R115). -/
def accessError (base : Word) (n : Nat) : Option Word :=
  if n = 0 ∨ base.toNat + n ≤ 4096 then none else some (BitVec.ofNat 16 (max base.toNat 4096))

/-- `MemRead(base, n)` (20_memory.md R42): the bytes, or the offending address. -/
def State.memRead (s : State) (base : Word) (n : Nat) : Except Word (List Byte) :=
  match accessError base n with
  | some addr => .error addr
  | none => .ok (s.readBytes base.toNat n)

/-- `MemWrite(base, n, bs)` (20_memory.md R42): every byte written, or the offending address and nothing written. -/
def State.memWrite (s : State) (base : Word) (bs : List Byte) : Except Word State :=
  match accessError base bs.length with
  | some addr => .error addr
  | none => .ok (s.writeBytes base.toNat bs)

/-! ## Registers (10_state.md) -/

/-- `V[r]`. -/
def State.readV (s : State) (r : Reg) : Byte := s.v[r.val]

/-- `V[r] <- b`. -/
def State.writeV (s : State) (r : Reg) (b : Byte) : State := { s with v := s.v.set r.val b }

/-- `pc <- a`. -/
def State.setPc (s : State) (a : Word) : State := { s with pc := a }

/-- `I <- a`. -/
def State.setI (s : State) (a : Word) : State := { s with i := a }

/-- `DT <- b`. -/
def State.setDT (s : State) (b : Byte) : State := { s with dt := b }

/-- `ST <- b`. -/
def State.setST (s : State) (b : Byte) : State := { s with st := b }

/-- `DISP <- d`. -/
def State.setDisp (s : State) (d : Pixels) : State := { s with disp := d }

/-- `KEY[k] = 1` (10_state.md R26). -/
def State.keyPressed (s : State) (k : Nat) : Bool := s.keys.getLsbD k

/-- The lowest-indexed pressed key, if any is pressed (45_timers_keys.md R112). -/
def State.lowestKey (s : State) : Option Nat := (List.range 16).find? s.keyPressed

/-- One random byte is consumed: the next draw is a new one (00_scope.md R7). -/
def State.countDraw (s : State) : State := { s with draws := s.draws + 1 }

/-- `S[k]`. -/
def State.stackAt (s : State) (k : Fin 16) : Word := s.stack[k.val]

/-- Push `a` (10_state.md R23), or nothing when the stack is full (R22). -/
def State.push (s : State) (a : Word) : Option State :=
  if h : s.sp.val < 16 then
    some { s with stack := s.stack.set s.sp.val a, sp := ⟨s.sp.val + 1, by omega⟩ }
  else none

/-- Pop (10_state.md R23): the top, which keeps its value in the array, and the state after; nothing when the stack is
empty (R22). -/
def State.pop (s : State) : Option (Word × State) :=
  if h : 0 < s.sp.val then
    some (s.stackAt ⟨s.sp.val - 1, by omega⟩, { s with sp := ⟨s.sp.val - 1, by omega⟩ })
  else none

/-- `Skip(cond)` (41_control_flow.md R76): one further instruction of 2 bytes, not fetched, decoded or checked. -/
def State.skip (s : State) (cond : Bool) : State := if cond then s.setPc (s.pc + 2) else s

/-! ## The display store (20_memory.md R48, R49) -/

/-- The index of the pixel at (x, y), each coordinate wrapped on its own (10_state.md R27, 44_display.md R107). -/
def pixelIndex (x y : Nat) : Nat := x % 64 + (y % 32) * 64

/-- `DISP[p]`. -/
def State.pixel (s : State) (p : Nat) : Bool := s.disp.getLsbD p

/-- The display with pixel `p` flipped: the write of `DispXor(p)`. -/
def flipPixel (d : Pixels) (p : Nat) : Pixels := d ^^^ BitVec.twoPow 2048 p

/-- `if DispXor(p) = 1 then collision <- 1`: the flip, and the collision with the pre-flip value in it. -/
def drawPixel (acc : Pixels × Bool) (p : Nat) : Pixels × Bool := (flipPixel acc.1 p, acc.2 || acc.1.getLsbD p)

/-- The pixels drawn one after another, and whether any was lit before its flip. -/
def drawPixels (d : Pixels) (ps : List Nat) : Pixels × Bool := ps.foldl drawPixel (d, false)

/-- The pixels of the set bits of sprite row `r`, most significant bit leftmost (44_display.md R107). -/
def rowPixels (ox oy r : Nat) (row : Byte) : List Nat :=
  ((List.range 8).filter (fun c => row.getLsbD (7 - c))).map (fun c => pixelIndex (ox + c) (oy + r))

/-- The pixels of the set bits of the rows from row number `r` on, top row first. -/
def spritePixels (ox oy : Nat) (r : Nat) : List Byte → List Nat
  | [] => []
  | row :: rows => rowPixels ox oy r row ++ spritePixels ox oy (r + 1) rows

/-! ## Fetch and advance (40_cycle.md R66, R67) -/

/-- `Fetch(pc)` (20_memory.md R40): the word, high byte first, or the offending address. -/
def State.fetchWord (s : State) : Except Word Word :=
  match accessError s.pc 2 with
  | some addr => .error addr
  | none => .ok (wordOfBytes (s.readByte s.pc.toNat) (s.readByte (s.pc.toNat + 1)))

/-- The advance of R67: from here on `pc` is the address of the following instruction. -/
def State.advance (s : State) : State := s.setPc (s.pc + 2)

/-! ## Faults (60_exceptions.md R118 to R120) -/

/-- Taking a fault (R118): `pc` back at `pc0`, `RUN <- Faulted`, the record written, nothing else changed. It is applied to
a state in which the operation has written nothing. -/
def State.takeFault (s : State) (kind : FaultKind) (pc0 word addr : Word) : State :=
  { s with pc := pc0, run := .faulted, fault := { kind := some kind, pc := pc0, word := word, addr := addr } }

/-- The fault of an executing instruction: during execution `pc` is `pc0 + 2` (40_cycle.md R67) and the fetched word is
the instruction's own. Log 6. -/
def State.raiseFault (s : State) (i : Instr) (kind : FaultKind) (addr : Word) : State :=
  s.takeFault kind (s.pc - 2) (encode i) addr

/-- The only way out of the Faulted run state (R120): RESET (70_reset_and_hazards.md R128), every piece of state at its
reset value. The parameters are not state, and the random source is outside the block (10_state.md R31, R33), so
RESET touches neither. -/
def State.resetBlock (s : State) : State := { State.resetWith s.cfg with draws := s.draws }

end Sys2Proof.Machine
end

