-- ==== Sys2Proof/Machine/Operands.lean ====
section
/-! DEFINITION. The operand forms (30_encoding.md R57): zero-extended immediates and registers, a register's value as a
key index, the shift source, the register block V0..VX, the BCD digits. -/

namespace Sys2Proof.Machine

/-- `zext_16(nnn)`, an address 0..4095 (30_encoding.md R57). -/
def zextNnn (nnn : Nnn) : Word := nnn.setWidth 16

/-- `zext_16(b)` (30_encoding.md R57). -/
def zextByte (b : Byte) : Word := b.setWidth 16

/-- The key index of EX9E and EXA1 is the value `V[x]`: the key when it is at most 15, else the offending index
(45_timers_keys.md R109, R110). -/
def State.keyIndex (s : State) (x : Reg) : Except Word Nat :=
  if (s.readV x).toNat > 15 then .error (zextByte (s.readV x)) else .ok (s.readV x).toNat

/-- The register 8XY6 and 8XYE shift: VX, or VY in a block built with `SHIFT_USES_VY` (42_alu.md R96, R98). -/
def State.shiftSource (s : State) (x y : Reg) : Reg := if s.cfg.shiftUsesVy then y else x

/-- The values `V[0]`, ..., `V[x]` (43_index_memory.md R104). -/
def State.regBlock (s : State) (x : Reg) : List Byte := s.v.toList.take (x.val + 1)

/-- `V[k] <- b[0]`, `V[k+1] <- b[1]`, ... (43_index_memory.md R105). -/
def State.loadBlock (s : State) (k : Nat) : List Byte → State
  | [] => s
  | b :: bs => (if h : k < 16 then s.writeV ⟨k, h⟩ b else s).loadBlock (k + 1) bs

/-- The hundreds, tens and ones of a byte (43_index_memory.md R103). -/
def bcdDigits (b : Byte) : List Byte :=
  [BitVec.ofNat 8 (b.toNat / 100), BitVec.ofNat 8 (b.toNat / 10 % 10), BitVec.ofNat 8 (b.toNat % 10)]

end Sys2Proof.Machine
end

