-- ==== Sys2Proof/Machine/Flags.lean ====
section
/-! DEFINITION. The values VF takes as a flag (10_state.md R15, 42_alu.md R87). -/

namespace Sys2Proof.Machine

/-- The carry of 8XY4: 1 exactly when the unreduced sum exceeds 255 (42_alu.md R87, R94). -/
def carryFlag (a b : Byte) : Byte := if a.toNat + b.toNat > 255 then 1 else 0

/-- The not-borrow of `a - b`: 0 exactly when `a < b`, so equal operands give 1 (42_alu.md R87, R95, R97). -/
def notBorrowFlag (a b : Byte) : Byte := if a.toNat < b.toNat then 0 else 1

/-- The bit 8XY6 shifts out, bit 0 (42_alu.md R96). -/
def lowBitFlag (a : Byte) : Byte := a &&& 1

/-- The bit 8XYE shifts out, bit 7 (42_alu.md R98). -/
def highBitFlag (a : Byte) : Byte := (a >>> 7) &&& 1

/-- The collision of DXYN (44_display.md R107). -/
def collisionFlag (hit : Bool) : Byte := if hit then 1 else 0

/-- `V[15] <- flag`. -/
def State.setVF (s : State) (flag : Byte) : State := s.writeV regVF flag

end Sys2Proof.Machine
end

