-- ==== Sys2Proof/Machine/Alu.lean ====
section
/-! DEFINITION. Register loads, arithmetic, logic, shifts and random (42_alu.md). Assignments are sequential
(00_scope.md R11): where VX is VF, the later write stays. -/

namespace Sys2Proof.Machine

/-- LD Vx, nn (R88). -/
def execLdImm (x : Reg) (nn : Byte) (s : State) : Host.Outcome State Fault Refusal := .next (s.writeV x nn)

/-- ADD Vx, nn (R89): no carry flag. -/
def execAddImm (x : Reg) (nn : Byte) (s : State) : Host.Outcome State Fault Refusal :=
  .next (s.writeV x (s.readV x + nn))

/-- LD Vx, Vy (R90). -/
def execLdReg (x y : Reg) (s : State) : Host.Outcome State Fault Refusal := .next (s.writeV x (s.readV y))

/-- OR Vx, Vy (R91). -/
def execOrReg (x y : Reg) (s : State) : Host.Outcome State Fault Refusal :=
  .next (s.writeV x (s.readV x ||| s.readV y))

/-- AND Vx, Vy (R92). -/
def execAndReg (x y : Reg) (s : State) : Host.Outcome State Fault Refusal :=
  .next (s.writeV x (s.readV x &&& s.readV y))

/-- XOR Vx, Vy (R93). -/
def execXorReg (x y : Reg) (s : State) : Host.Outcome State Fault Refusal :=
  .next (s.writeV x (s.readV x ^^^ s.readV y))

/-- ADD Vx, Vy (R94): the sum, then the carry. -/
def execAddReg (x y : Reg) (s : State) : Host.Outcome State Fault Refusal :=
  .next ((s.writeV x (s.readV x + s.readV y)).setVF (carryFlag (s.readV x) (s.readV y)))

/-- SUB Vx, Vy (R95): the difference, then the not-borrow. -/
def execSub (x y : Reg) (s : State) : Host.Outcome State Fault Refusal :=
  .next ((s.writeV x (s.readV x - s.readV y)).setVF (notBorrowFlag (s.readV x) (s.readV y)))

/-- SUBN Vx, Vy (R97): the difference, then the not-borrow. -/
def execSubn (x y : Reg) (s : State) : Host.Outcome State Fault Refusal :=
  .next ((s.writeV x (s.readV y - s.readV x)).setVF (notBorrowFlag (s.readV y) (s.readV x)))

/-- A shift (R96, R98): VF gets the bit shifted out of the source register, then VX gets the shifted value of the source
register as that write left it. -/
def State.shift (s : State) (x y : Reg) (flag result : Byte → Byte) : State :=
  (s.setVF (flag (s.readV (s.shiftSource x y)))).writeV x
    (result ((s.setVF (flag (s.readV (s.shiftSource x y)))).readV (s.shiftSource x y)))

/-- SHR Vx, Vy (R96). -/
def execShr (x y : Reg) (s : State) : Host.Outcome State Fault Refusal :=
  .next (s.shift x y lowBitFlag (fun b => b >>> 1))

/-- SHL Vx, Vy (R98). -/
def execShl (x y : Reg) (s : State) : Host.Outcome State Fault Refusal :=
  .next (s.shift x y highBitFlag (fun b => b <<< 1))

/-- RND Vx, nn (R99) for a given draw. -/
def State.maskDraw (s : State) (draw : Byte) (x : Reg) (nn : Byte) : State := (s.countDraw).writeV x (draw &&& nn)

/-- RND Vx, nn (R99): one draw, whose value nothing is known of. -/
def execRnd (x : Reg) (nn : Byte) (s : State) : Host.Outcome State Fault Refusal :=
  .next (s.maskDraw (Config.randomByte s.draws) x nn)

end Sys2Proof.Machine
end

