-- ==== Sys2Proof/Machine/ControlFlow.lean ====
section
/-! DEFINITION. Control flow (41_control_flow.md): NOP, RET, JP, CALL, the register skips, JP V0. Each meaning runs on the
state after the advance (40_cycle.md R67). -/

namespace Sys2Proof.Machine

/-- NOP (R77): nothing. -/
def execNop (s : State) : Host.Outcome State Fault Refusal := .next s

/-- RET (R78). -/
def execRet (s : State) : Host.Outcome State Fault Refusal :=
  match s.pop with
  | none => .next (s.raiseFault .ret .stackUnderflow 0)
  | some (target, t) => .next (t.setPc target)

/-- JP nnn (R79). -/
def execJp (nnn : Nnn) (s : State) : Host.Outcome State Fault Refusal := .next (s.setPc (zextNnn nnn))

/-- CALL nnn (R80): pushes the advanced `pc`. -/
def execCall (nnn : Nnn) (s : State) : Host.Outcome State Fault Refusal :=
  match s.push s.pc with
  | none => .next (s.raiseFault (.call nnn) .stackOverflow 0)
  | some t => .next (t.setPc (zextNnn nnn))

/-- SE Vx, nn (R81). -/
def execSeImm (x : Reg) (nn : Byte) (s : State) : Host.Outcome State Fault Refusal :=
  .next (s.skip (s.readV x = nn))

/-- SNE Vx, nn (R82). -/
def execSneImm (x : Reg) (nn : Byte) (s : State) : Host.Outcome State Fault Refusal :=
  .next (s.skip (s.readV x ≠ nn))

/-- SE Vx, Vy (R83). -/
def execSeReg (x y : Reg) (s : State) : Host.Outcome State Fault Refusal :=
  .next (s.skip (s.readV x = s.readV y))

/-- SNE Vx, Vy (R84). -/
def execSneReg (x y : Reg) (s : State) : Host.Outcome State Fault Refusal :=
  .next (s.skip (s.readV x ≠ s.readV y))

/-- JP V0, nnn (R85): always V0. -/
def execJpV0 (nnn : Nnn) (s : State) : Host.Outcome State Fault Refusal :=
  .next (s.setPc (zextNnn nnn + zextByte (s.readV regV0)))

end Sys2Proof.Machine
end

