-- ==== Sys2Proof/Machine/Draw.lean ====
section
/-! DEFINITION. The display instructions (44_display.md). -/

namespace Sys2Proof.Machine

/-- CLS (R106). -/
def execCls (s : State) : Host.Outcome State Fault Refusal := .next (s.setDisp 0)

/-- The sprite of some rows drawn at an origin, and VF the collision of the whole sprite (R107). -/
def State.drawSprite (s : State) (ox oy : Nat) (rows : List Byte) : State :=
  (s.setDisp (drawPixels s.disp (spritePixels ox oy 0 rows)).1).setVF
    (collisionFlag (drawPixels s.disp (spritePixels ox oy 0 rows)).2)

/-- DRW Vx, Vy, n (R107): the rows are read, and the origin taken, before anything is written. -/
def execDrw (x y : Reg) (n : Nat) (s : State) : Host.Outcome State Fault Refusal :=
  match s.memRead s.i n with
  | .error addr => .next (s.raiseFault (.drw x y n) .addressOutOfRange addr)
  | .ok rows => .next (s.drawSprite (s.readV x).toNat (s.readV y).toNat rows)

end Sys2Proof.Machine
end

