-- ==== Sys2Proof/Machine/IndexMemory.lean ====
section
/-! DEFINITION. The index register, font lookup, BCD and block load and store (43_index_memory.md). -/

namespace Sys2Proof.Machine

/-- LD I, nnn (R100). -/
def execLdI (nnn : Nnn) (s : State) : Host.Outcome State Fault Refusal := .next (s.setI (zextNnn nnn))

/-- ADD I, Vx (R101): modulo 65536, no flag. -/
def execAddI (x : Reg) (s : State) : Host.Outcome State Fault Refusal :=
  .next (s.setI (s.i + zextByte (s.readV x)))

/-- LD F, Vx (R102): the value is not masked. -/
def execLdF (x : Reg) (s : State) : Host.Outcome State Fault Refusal := .next (s.setI (zextByte (s.readV x) * 5))

/-- LD B, Vx (R103). -/
def execLdB (x : Reg) (s : State) : Host.Outcome State Fault Refusal :=
  match s.memWrite s.i (bcdDigits (s.readV x)) with
  | .error addr => .next (s.raiseFault (.ldB x) .addressOutOfRange addr)
  | .ok t => .next t

/-- LD [I], Vx (R104): I is unchanged. -/
def execStRegs (x : Reg) (s : State) : Host.Outcome State Fault Refusal :=
  match s.memWrite s.i (s.regBlock x) with
  | .error addr => .next (s.raiseFault (.stRegs x) .addressOutOfRange addr)
  | .ok t => .next t

/-- LD Vx, [I] (R105): I is unchanged. -/
def execLdRegs (x : Reg) (s : State) : Host.Outcome State Fault Refusal :=
  match s.memRead s.i (x.val + 1) with
  | .error addr => .next (s.raiseFault (.ldRegs x) .addressOutOfRange addr)
  | .ok bs => .next (s.loadBlock 0 bs)

end Sys2Proof.Machine
end

