-- ==== Sys2Proof/Machine/TimersKeys.lean ====
section
/-! DEFINITION. Key skips, key wait and timer access (45_timers_keys.md). -/

namespace Sys2Proof.Machine

/-- SKP Vx (R109). -/
def execSkp (x : Reg) (s : State) : Host.Outcome State Fault Refusal :=
  match s.keyIndex x with
  | .error index => .next (s.raiseFault (.skp x) .addressOutOfRange index)
  | .ok k => .next (s.skip (s.keyPressed k))

/-- SKNP Vx (R110). -/
def execSknp (x : Reg) (s : State) : Host.Outcome State Fault Refusal :=
  match s.keyIndex x with
  | .error index => .next (s.raiseFault (.sknp x) .addressOutOfRange index)
  | .ok k => .next (s.skip (!s.keyPressed k))

/-- LD Vx, DT (R111). -/
def execLdVxDT (x : Reg) (s : State) : Host.Outcome State Fault Refusal := .next (s.writeV x s.dt)

/-- LD Vx, K (R112): the lowest pressed key, or `pc` back at this instruction. -/
def execLdVxK (x : Reg) (s : State) : Host.Outcome State Fault Refusal :=
  match s.lowestKey with
  | some k => .next (s.writeV x (BitVec.ofNat 8 k))
  | none => .next (s.setPc (s.pc - 2))

/-- LD DT, Vx (R113). -/
def execLdDTVx (x : Reg) (s : State) : Host.Outcome State Fault Refusal := .next (s.setDT (s.readV x))

/-- LD ST, Vx (R114). -/
def execLdSTVx (x : Reg) (s : State) : Host.Outcome State Fault Refusal := .next (s.setST (s.readV x))

end Sys2Proof.Machine
end

