-- ==== Sys2Proof/Machine/Step.lean ====
section
/-! DEFINITION. One CYCLE (40_cycle.md R65, R70), and the state in which the next CYCLE runs a given instruction. -/

namespace Sys2Proof.Machine

/-- CYCLE (R70). In the Faulted run state it does nothing (R65, 60_exceptions.md R119). Else it fetches, advances, decodes
and executes, and the first fault ends it (60_exceptions.md R121). Its status is `State.status` of the state it answers. -/
def step (s : State) : Host.Outcome State Fault Refusal :=
  match s.run with
  | .faulted => .next s
  | .running =>
    match s.fetchWord with
    | .error addr => .next (s.takeFault .addressOutOfRange s.pc 0 addr)
    | .ok w =>
      match decodeWord w with
      | .error _ => .next (s.takeFault .unknownOpcode s.pc w 0)
      | .ok i => exec i s.advance

/-- `s` with the instruction word stored where `step` fetches: high byte at `pc`, low byte at `pc + 1`. In a state that
cannot fetch, what a fetch needs is put right first: a Faulted block is put back to Running with an empty fault record,
and a `pc` above 4094 is put to the entry point. It stands for the host's loading of a program. Log 7. -/
def State.withFetchWord (s : State) (nbits w : Nat) : State :=
  let word : Word := BitVec.ofNat 16 (w % 2 ^ nbits)
  let r : State := match s.run with
    | .running => s
    | .faulted => { s with run := .running, fault := noFaultRecord }
  let t : State := match accessError r.pc 2 with
    | none => r
    | some _ => r.setPc 0x200
  t.writeBytes t.pc.toNat [highByte word, lowByte word]

end Sys2Proof.Machine
end

