-- ==== Sys2Proof/Machine/HostOps.lean ====
section
/-! DEFINITION. The host's seven operations (40_cycle.md R63, R64): RESET, LOAD_ROM, CYCLE, TICK, SET_KEY, GET_DISPLAY,
OBSERVE, each one atomic transaction, and a schedule of them. Log 8. -/

namespace Sys2Proof.Machine

/-- The numeric code of a fault kind, 3 bits; 0 is none (60_exceptions.md R115). -/
def kindCode : Option FaultKind → BitVec 3
  | none => 0
  | some .addressOutOfRange => 1
  | some .programTooLarge => 2
  | some .stackOverflow => 3
  | some .stackUnderflow => 4
  | some .unknownOpcode => 5

/-- What an operation returns to the host as its status: `OK` (`none`) or a fault kind (40_cycle.md R63). -/
abbrev Status := Option FaultKind

/-- The status of a CYCLE, TICK or LOAD_ROM that ended in `s`: the recorded kind in the Faulted run state, else `OK`
(40_cycle.md R70, 60_exceptions.md R118, R119). -/
def State.status (s : State) : Status :=
  match s.run with
  | .running => none
  | .faulted => s.fault.kind

/-- A timer after one tick: down by 1, floored at 0 (60_exceptions.md R124). -/
def tickDown (b : Byte) : Byte := if b.toNat > 0 then b - 1 else 0

/-- TICK (60_exceptions.md R124). -/
def State.tick (s : State) : State :=
  match s.run with
  | .faulted => s
  | .running => (s.setDT (tickDown s.dt)).setST (tickDown s.st)

/-- Memory with the program region, 512..4095, back at 0. -/
def Memory.clearProgram (m : Memory) : Memory := m.filter (fun c => c.1 < 512)

/-- LOAD_ROM (20_memory.md R50): the bytes from 512 up, 0 after them; or ProgramTooLarge and memory unchanged, with `pc`
kept and recorded (60_exceptions.md R117). -/
def State.loadRom (s : State) (rom : List Byte) : State :=
  match s.run with
  | .faulted => s
  | .running =>
    if 512 + rom.length > 4096 then s.takeFault .programTooLarge s.pc 0 0
    else ({ s with mem := Memory.clearProgram s.mem } : State).writeBytes 512 rom

/-- The key state with key `k` set to a level. -/
def setKeyBit (keys : Keys) (k : Nat) (pressed : Bool) : Keys :=
  if pressed then keys ||| BitVec.twoPow 16 k else keys &&& ~~~(BitVec.twoPow 16 k)

/-- SET_KEY (40_cycle.md R72): acts in both run states; an index above 15 is rejected by its status alone. -/
def State.setKey (s : State) (index : Nat) (pressed : Bool) : State × Status :=
  if index > 15 then (s, some .addressOutOfRange)
  else ({ s with keys := setKeyBit s.keys index pressed }, none)

/-- The host's operations. The random input of CYCLE is the free byte of `Config.randomByte`. -/
inductive HostOp where
  | reset
  | loadRom (rom : List Byte)
  | cycle
  | tick
  | setKey (index : Nat) (pressed : Bool)
  | getDisplay
  | observe
  deriving DecidableEq, Repr

/-- What an operation returns. -/
inductive Reply where
  /-- RESET returns no status (70_reset_and_hazards.md R128). -/
  | done
  | status (r : Status)
  /-- GET_DISPLAY: the 2048 pixels (40_cycle.md R73). -/
  | display (d : Pixels)
  /-- OBSERVE: the whole state (40_cycle.md R74). -/
  | observed (s : State)
  deriving DecidableEq, Repr

/-- The status reply of an operation that answered a state. -/
def withStatus : Host.Outcome State Fault Refusal → Host.Outcome (State × Reply) Fault Refusal
  | .next t => .next (t, .status t.status)
  | .fault r => .fault r
  | .refused r => .refused r

/-- One host operation. -/
def hostStep (op : HostOp) (s : State) : Host.Outcome (State × Reply) Fault Refusal :=
  match op with
  | .reset => .next (s.resetBlock, .done)
  | .loadRom rom => .next (s.loadRom rom, .status (s.loadRom rom).status)
  | .cycle => withStatus (step s)
  | .tick => .next (s.tick, .status s.tick.status)
  | .setKey index pressed => .next ((s.setKey index pressed).1, .status (s.setKey index pressed).2)
  | .getDisplay => .next (s, .display s.disp)
  | .observe => .next (s, .observed s)

/-- A schedule of host operations, one after the other (40_cycle.md R64). -/
def hostRun : List HostOp → State → Host.Outcome State Fault Refusal
  | [], s => .next s
  | op :: ops, s =>
    match hostStep op s with
    | .next (t, _) => hostRun ops t
    | .fault r => .fault r
    | .refused r => .refused r

end Sys2Proof.Machine
end

