-- ==== Sys2Proof/Safety.lean ====
section
/-! DEFINITION. The terms the claims use: the parts of a state and what keeps them, the invariant, when a cycle faults
(60_exceptions.md R116) and with which record, where `pc` goes (10_state.md R18), which instructions may write which part,
the illegal words (30_encoding.md R59), the end of a run (40_cycle.md R71). None of them is used by the machine. -/

namespace Sys2Proof.Machine

/-! ## The parts of a state -/

/-- Everything OBSERVE returns (40_cycle.md R74), piece by piece, and the model's own two fields. -/
inductive Part where
  | v (r : Reg)
  | pc
  | i
  | sp
  | stack (k : Fin 16)
  | dt
  | st
  | key (k : Nat)
  | pixel (p : Nat)
  | byte (a : Nat)
  | run
  | fault
  | draws
  | cfg
  deriving DecidableEq, Repr

/-- The part reads the same in both states; memory is compared through the read of one byte. -/
def SamePart (s t : State) : Part → Prop
  | .v r => t.readV r = s.readV r
  | .pc => t.pc = s.pc
  | .i => t.i = s.i
  | .sp => t.sp = s.sp
  | .stack k => t.stackAt k = s.stackAt k
  | .dt => t.dt = s.dt
  | .st => t.st = s.st
  | .key k => t.keyPressed k = s.keyPressed k
  | .pixel p => t.pixel p = s.pixel p
  | .byte a => t.readByte a = s.readByte a
  | .run => t.run = s.run
  | .fault => t.fault = s.fault
  | .draws => t.draws = s.draws
  | .cfg => t.cfg = s.cfg

/-- Every part outside `written` reads the same: the frame of an instruction or operation. -/
def KeepsAllBut (written : Part → Prop) (s t : State) : Prop := ∀ p, ¬ written p → SamePart s t p

/-! ## The invariant -/

/-- What holds after reset and is kept by every operation. -/
structure Inv (s : State) : Prop where
  /-- Memory is in its canonical form: it lists addresses of the 4096-byte store only (20_memory.md R34). -/
  memory : Memory.wf s.cfg s.mem
  /-- `pc` lies in 0..0x10FE (10_state.md R20). -/
  pc_le : s.pc.toNat ≤ 0x10FE
  /-- A return address was a `pc` just after an advance, so it is at most 4096 (10_state.md R20, R23). -/
  stack_le : ∀ k, (s.stackAt k).toNat ≤ 4096
  /-- A Running block has no fault recorded (10_state.md R29). -/
  running : s.run = .running → s.fault = noFaultRecord
  /-- A Faulted block has a kind recorded, and `pc` at the recorded `pc` (60_exceptions.md R117, R118). -/
  faulted : s.run = .faulted → s.fault.kind ≠ none ∧ s.fault.pc = s.pc

/-! ## When a cycle faults (60_exceptions.md R115, R116, R121) -/

/-- The addresses an access at `base` offends with start here (60_exceptions.md R115). -/
def lowestOffending (base : Word) : Word := BitVec.ofNat 16 (max base.toNat 4096)

/-- The one condition under which an instruction faults at execute, its kind and `FAULT.addr` (60_exceptions.md R116); the
other 27 instructions raise nothing. -/
def executeFault (i : Instr) (s : State) : Option (FaultKind × Word) :=
  match i with
  | .ret => if s.sp.val = 0 then some (.stackUnderflow, 0) else none
  | .call _ => if s.sp.val = 16 then some (.stackOverflow, 0) else none
  | .drw _ _ n => if n > 0 ∧ s.i.toNat + n - 1 > 4095 then some (.addressOutOfRange, lowestOffending s.i) else none
  | .skp x | .sknp x =>
    if (s.readV x).toNat > 15 then some (.addressOutOfRange, BitVec.ofNat 16 (s.readV x).toNat) else none
  | .ldB _ => if s.i.toNat + 2 > 4095 then some (.addressOutOfRange, lowestOffending s.i) else none
  | .stRegs x | .ldRegs x =>
    if s.i.toNat + x.val > 4095 then some (.addressOutOfRange, lowestOffending s.i) else none
  | .nop | .cls | .jp _ | .seImm _ _ | .sneImm _ _ | .seReg _ _ | .sneReg _ _ | .ldImm _ _ | .addImm _ _ => none
  | .ldReg _ _ | .orReg _ _ | .andReg _ _ | .xorReg _ _ | .addReg _ _ | .sub _ _ | .shr _ _ | .subn _ _ => none
  | .shl _ _ | .ldI _ | .jpV0 _ | .rnd _ _ | .ldVxDT _ | .ldVxK _ | .ldDTVx _ | .ldSTVx _ | .addI _ | .ldF _ => none

/-- The word a cycle fetches at `pc` (20_memory.md R40), where both its bytes are in the store. -/
def State.wordAtPc (s : State) : Word := wordOfBytes (s.readByte s.pc.toNat) (s.readByte (s.pc.toNat + 1))

/-- The record of the fault a cycle of a Running block raises, in the order of 60_exceptions.md R121: the fetch, else the
decode, else the instruction. -/
def cycleFault (s : State) : Option FaultRecord :=
  if s.pc.toNat + 1 > 4095 then
    some { kind := some .addressOutOfRange, pc := s.pc, word := 0, addr := lowestOffending s.pc }
  else
    match decodeWord s.wordAtPc with
    | .error _ => some { kind := some .unknownOpcode, pc := s.pc, word := s.wordAtPc, addr := 0 }
    | .ok i =>
      match executeFault i s with
      | some (kind, addr) => some { kind := some kind, pc := s.pc, word := s.wordAtPc, addr := addr }
      | none => none

/-- A Running block whose next cycle fetches and decodes the instruction `i`. -/
def Fetches (s : State) (i : Instr) : Prop :=
  s.run = .running ∧ s.pc.toNat + 1 ≤ 4095 ∧ decodeWord s.wordAtPc = .ok i

/-- Executing `i` in `s` (whose `pc` is `pc0 + 2`) takes the fault `kind` with `FAULT.addr = addr`: the entry of
60_exceptions.md R118, nothing but `pc`, `RUN` and `FAULT` changed. -/
def Raises (i : Instr) (s : State) (kind : FaultKind) (addr : Nat) : Prop :=
  ∃ t, exec i s = .next t ∧ t.run = .faulted ∧ t.pc = s.pc - 2 ∧
    t.fault.kind = some kind ∧ t.fault.pc = s.pc - 2 ∧ t.fault.word = encode i ∧ t.fault.addr.toNat = addr ∧
    KeepsAllBut (fun p => p = .pc ∨ p = .run ∨ p = .fault) s t

/-! ## Where `pc` goes (10_state.md R18) -/

/-- Whether the key of a key skip is pressed, read from the state as it is. -/
def State.keyOf (s : State) (x : Reg) : Bool := s.keyPressed (s.readV x).toNat

/-- `pc` after a cycle that did not fault, from the state before it, as a number (10_state.md R18). -/
def pcAfter (i : Instr) (s : State) : Nat :=
  match i with
  | .seImm x nn => if s.readV x = nn then s.pc.toNat + 4 else s.pc.toNat + 2
  | .sneImm x nn => if s.readV x = nn then s.pc.toNat + 2 else s.pc.toNat + 4
  | .seReg x y => if s.readV x = s.readV y then s.pc.toNat + 4 else s.pc.toNat + 2
  | .sneReg x y => if s.readV x = s.readV y then s.pc.toNat + 2 else s.pc.toNat + 4
  | .skp x => if s.keyOf x = true then s.pc.toNat + 4 else s.pc.toNat + 2
  | .sknp x => if s.keyOf x = true then s.pc.toNat + 2 else s.pc.toNat + 4
  | .jp nnn | .call nnn => nnn.toNat
  | .jpV0 nnn => nnn.toNat + (s.readV regV0).toNat
  | .ret => if h : 0 < s.sp.val then (s.stackAt ⟨s.sp.val - 1, by omega⟩).toNat else s.pc.toNat
  | .ldVxK _ => if ∃ k < 16, s.keyPressed k = true then s.pc.toNat + 2 else s.pc.toNat
  | .nop | .cls | .ldImm _ _ | .addImm _ _ | .ldReg _ _ | .orReg _ _ | .andReg _ _ | .xorReg _ _ => s.pc.toNat + 2
  | .addReg _ _ | .sub _ _ | .shr _ _ | .subn _ _ | .shl _ _ | .ldI _ | .rnd _ _ | .drw _ _ _ => s.pc.toNat + 2
  | .ldVxDT _ | .ldDTVx _ | .ldSTVx _ | .addI _ | .ldF _ | .ldB _ | .stRegs _ | .ldRegs _ => s.pc.toNat + 2

/-! ## Which instructions may write which part -/

/-- The instructions that write VX as their destination (10_state.md R14). -/
def destination : Instr → Option Reg
  | .ldImm x _ | .addImm x _ | .rnd x _ => some x
  | .ldReg x _ | .orReg x _ | .andReg x _ | .xorReg x _ => some x
  | .addReg x _ | .sub x _ | .shr x _ | .subn x _ | .shl x _ => some x
  | .ldVxDT x | .ldVxK x => some x
  | .nop | .cls | .ret | .jp _ | .call _ | .seImm _ _ | .sneImm _ _ | .seReg _ _ | .sneReg _ _ => none
  | .ldI _ | .jpV0 _ | .drw _ _ _ | .skp _ | .sknp _ | .ldDTVx _ | .ldSTVx _ | .addI _ | .ldF _ | .ldB _ => none
  | .stRegs _ | .ldRegs _ => none

/-- The instructions that write VF as a flag (10_state.md R15). -/
def writesFlag : Instr → Bool
  | .addReg _ _ | .sub _ _ | .subn _ _ | .shr _ _ | .shl _ _ | .drw _ _ _ => true
  | .nop | .cls | .ret | .jp _ | .call _ | .seImm _ _ | .sneImm _ _ | .seReg _ _ | .sneReg _ _ => false
  | .ldImm _ _ | .addImm _ _ | .ldReg _ _ | .orReg _ _ | .andReg _ _ | .xorReg _ _ | .ldI _ | .jpV0 _ => false
  | .rnd _ _ | .skp _ | .sknp _ | .ldVxDT _ | .ldVxK _ | .ldDTVx _ | .ldSTVx _ | .addI _ | .ldF _ | .ldB _ => false
  | .stRegs _ | .ldRegs _ => false

/-- Whether executing `i` in `s` may write register `r`: as its destination, as the flag, or in the block of FX65
(10_state.md R14, R15). -/
def MayWriteV (i : Instr) (r : Reg) : Prop :=
  destination i = some r ∨ (writesFlag i = true ∧ r = regVF) ∨ ∃ x, i = .ldRegs x ∧ r ≤ x

/-- The addresses an instruction stores to: FX33 three bytes at I, FX55 `x + 1` bytes at I (20_memory.md R45). -/
def storesTo (i : Instr) (s : State) (a : Nat) : Prop :=
  (∃ x, i = .ldB x ∧ s.i.toNat ≤ a ∧ a < s.i.toNat + 3) ∨
  (∃ x : Reg, i = .stRegs x ∧ s.i.toNat ≤ a ∧ a < s.i.toNat + (x.val + 1))

/-! ## Words by their fields, as numbers (30_encoding.md R56) -/

/-- The word with family `h` and `w[11:0] = nnn`. -/
def wordNNN (h : Nat) (nnn : Nnn) : Word := BitVec.ofNat 16 (h * 4096 + nnn.toNat)

/-- The word with family `h`, `w[11:8] = x` and `w[7:0] = nn`. -/
def wordXNN (h : Nat) (x : Reg) (nn : Nat) : Word := BitVec.ofNat 16 (h * 4096 + x.val * 256 + nn)

/-- The word with family `h`, `w[11:8] = x`, `w[7:4] = y` and `w[3:0] = n`. -/
def wordXYN (h : Nat) (x y : Reg) (n : Nat) : Word := BitVec.ofNat 16 (h * 4096 + x.val * 256 + y.val * 16 + n)

/-! ## Illegal words (30_encoding.md R59) -/

/-- The words of the table of R59, family by family. -/
def illegalWord (w : Word) : Prop :=
  (w.toNat < 0x1000 ∧ w ≠ 0x0000 ∧ w ≠ 0x00E0 ∧ w ≠ 0x00EE) ∨
  (w.toNat / 0x1000 = 0x5 ∧ w.toNat % 16 ≠ 0) ∨
  (w.toNat / 0x1000 = 0x8 ∧ w.toNat % 16 ∈ [0x8, 0x9, 0xA, 0xB, 0xC, 0xD, 0xF]) ∨
  (w.toNat / 0x1000 = 0x9 ∧ w.toNat % 16 ≠ 0) ∨
  (w.toNat / 0x1000 = 0xE ∧ w.toNat % 256 ∉ [0x9E, 0xA1]) ∨
  (w.toNat / 0x1000 = 0xF ∧ w.toNat % 256 ∉ [0x07, 0x0A, 0x15, 0x18, 0x1E, 0x29, 0x33, 0x55, 0x65])

/-! ## Sprites (44_display.md R107) -/

/-- Pixel `p` is under a set bit of the `n`-row sprite at I drawn from the origin (VX, VY): row `r`, column `c`, most
significant bit leftmost, each coordinate wrapped on its own. -/
def Covered (s : State) (x y : Reg) (n p : Nat) : Prop :=
  ∃ r < n, ∃ c < 8, (s.readByte (s.i.toNat + r)).getLsbD (7 - c) = true ∧
    p = ((s.readV x).toNat + c) % 64 + (((s.readV y).toNat + r) % 32) * 64

/-! ## The end of a run (40_cycle.md R71) -/

/-- The first such state ends a run, for the purpose of a claim; the block itself does not stop there. -/
def endOfRun (s : State) : Bool :=
  s.run = .faulted ||
    (decide (s.pc.toNat + 1 ≤ 4095) && decide (fieldN1 s.wordAtPc = 1) && decide (zextNnn (fieldNNN s.wordAtPc) = s.pc))

end Sys2Proof.Machine
end

