-- ==== Sys2Proof/Certificates/Slice0/Obligations.lean ====
section
/-! DEFINITION. The statements about the model, for the provers. In every statement about `exec i s`, `s` is the state after
the advance (40_cycle.md R67): its `pc` is the address of the following instruction. That an instruction changes nothing else
(its frame) is the spec's reading of its effect column, 00_scope.md R11, decision D10 of the spec. -/

open Sys2Proof Sys2Proof.Machine

/-! ## Encoding -/

/-- A few words written out from the encodings of 30_encoding.md R58 decode to the instructions they stand for. -/
def Obligations.SpecWordsDecode : Prop :=
  decodeWord 0x00EE = .ok .ret ∧ decodeWord 0x1234 = .ok (.jp 0x234) ∧ decodeWord 0x3342 = .ok (.seImm 3 0x42) ∧
  decodeWord 0x5120 = .ok (.seReg 1 2) ∧ decodeWord 0x8126 = .ok (.shr 1 2) ∧ decodeWord 0xB300 = .ok (.jpV0 0x300) ∧
  decodeWord 0xD01F = .ok (.drw 0 1 15) ∧ decodeWord 0xE5A1 = .ok (.sknp 5) ∧ decodeWord 0xF30A = .ok (.ldVxK 3) ∧
  decodeWord 0xFA33 = .ok (.ldB 10) ∧ decodeWord 0x0123 = .error (.unknownOpcode 0x0123)

/-- Decoding the word, or the stored bytes, of a well-formed instruction gives it back, with every operand. -/
def Obligations.DecodeInvertsEncode : Prop :=
  ∀ i : Instr, WellFormed i →
    decodeWord (encode i) = .ok i ∧ ∀ rest, decode (encodeBytes i ++ rest) = .ok (i, rest)

/-- Every word of every shape, its fields laid out as numbers (30_encoding.md R56), is read as the instruction of its row of
the opcode map (R58), with the operands those fields hold. -/
def Obligations.EveryShapeIsReadFieldByField : Prop :=
  ∀ (x y : Reg) (n : Nat) (nn : Byte) (nnn : Nnn), n ≤ 15 →
    (decodeWord 0x0000 = .ok .nop ∧ decodeWord 0x00E0 = .ok .cls ∧ decodeWord 0x00EE = .ok .ret) ∧
    (decodeWord (wordNNN 1 nnn) = .ok (.jp nnn) ∧ decodeWord (wordNNN 2 nnn) = .ok (.call nnn) ∧
      decodeWord (wordNNN 10 nnn) = .ok (.ldI nnn) ∧ decodeWord (wordNNN 11 nnn) = .ok (.jpV0 nnn)) ∧
    (decodeWord (wordXNN 3 x nn.toNat) = .ok (.seImm x nn) ∧ decodeWord (wordXNN 4 x nn.toNat) = .ok (.sneImm x nn) ∧
      decodeWord (wordXNN 6 x nn.toNat) = .ok (.ldImm x nn) ∧ decodeWord (wordXNN 7 x nn.toNat) = .ok (.addImm x nn) ∧
      decodeWord (wordXNN 12 x nn.toNat) = .ok (.rnd x nn)) ∧
    (decodeWord (wordXYN 5 x y 0) = .ok (.seReg x y) ∧ decodeWord (wordXYN 9 x y 0) = .ok (.sneReg x y) ∧
      decodeWord (wordXYN 13 x y n) = .ok (.drw x y n)) ∧
    (decodeWord (wordXYN 8 x y 0) = .ok (.ldReg x y) ∧ decodeWord (wordXYN 8 x y 1) = .ok (.orReg x y) ∧
      decodeWord (wordXYN 8 x y 2) = .ok (.andReg x y) ∧ decodeWord (wordXYN 8 x y 3) = .ok (.xorReg x y) ∧
      decodeWord (wordXYN 8 x y 4) = .ok (.addReg x y) ∧ decodeWord (wordXYN 8 x y 5) = .ok (.sub x y) ∧
      decodeWord (wordXYN 8 x y 6) = .ok (.shr x y) ∧ decodeWord (wordXYN 8 x y 7) = .ok (.subn x y) ∧
      decodeWord (wordXYN 8 x y 14) = .ok (.shl x y)) ∧
    (decodeWord (wordXNN 14 x 0x9E) = .ok (.skp x) ∧ decodeWord (wordXNN 14 x 0xA1) = .ok (.sknp x)) ∧
    (decodeWord (wordXNN 15 x 0x07) = .ok (.ldVxDT x) ∧ decodeWord (wordXNN 15 x 0x0A) = .ok (.ldVxK x) ∧
      decodeWord (wordXNN 15 x 0x15) = .ok (.ldDTVx x) ∧ decodeWord (wordXNN 15 x 0x18) = .ok (.ldSTVx x) ∧
      decodeWord (wordXNN 15 x 0x1E) = .ok (.addI x) ∧ decodeWord (wordXNN 15 x 0x29) = .ok (.ldF x) ∧
      decodeWord (wordXNN 15 x 0x33) = .ok (.ldB x) ∧ decodeWord (wordXNN 15 x 0x55) = .ok (.stRegs x) ∧
      decodeWord (wordXNN 15 x 0x65) = .ok (.ldRegs x))

/-- What the decoder reads is well formed, and encodes to the word it was read from: no bit of a word is dropped, the
ignored `y` of 8XY6 and 8XYE among them (30_encoding.md R60). -/
def Obligations.EncodeInvertsDecode : Prop :=
  ∀ (w : Word) (i : Instr), decodeWord w = .ok i → encode i = w ∧ WellFormed i

/-- The illegal words are exactly those of the table of 30_encoding.md R59, and the error names the word. -/
def Obligations.IllegalWordsAreThoseOfTheTable : Prop :=
  ∀ w : Word, (illegalWord w → decodeWord w = .error (.unknownOpcode w)) ∧
    (¬ illegalWord w → ∃ i, decodeWord w = .ok i)

/-- The 35 masks and matches: no word matches two rows, and a word is an instruction of a row exactly when
`w AND mask = match` (30_encoding.md R58). -/
def Obligations.RowsAreDisjointAndDecideDecoding : Prop :=
  opcodeMap.length = 35 ∧
  opcodeMap.Pairwise (fun a b => ∀ w, ¬ (matchesRow w a = true ∧ matchesRow w b = true)) ∧
  (∀ w i, decodeWord w = .ok i → opcodeRow i ∈ opcodeMap ∧ matchesRow w (opcodeRow i) = true) ∧
  (∀ w, ∀ row ∈ opcodeMap, matchesRow w row = true → ∃ i, decodeWord w = .ok i ∧ opcodeRow i = row)

/-! ## The cycle -/

/-- 20_memory.md R40. -/
def Obligations.FetchReadsTwoBytesHighFirst : Prop :=
  ∀ s : State,
    (s.pc.toNat + 1 ≤ 4095 → ∃ w, s.fetchWord = .ok w ∧
      w.toNat = (s.readByte s.pc.toNat).toNat * 256 + (s.readByte (s.pc.toNat + 1)).toNat) ∧
    (4095 < s.pc.toNat + 1 → ∃ a, s.fetchWord = .error a ∧ a.toNat = max s.pc.toNat 4096)

/-- A step runs the decoded instruction, on the state whose `pc` is advanced by 2 and which is otherwise the same
(40_cycle.md R67); the advance does not wrap. -/
def Obligations.StepRunsTheDecodedInstruction : Prop :=
  ∀ (s : State) (w : Word) (i : Instr), s.run = .running → s.pc.toNat + 1 ≤ 4095 →
    w.toNat = (s.readByte s.pc.toNat).toNat * 256 + (s.readByte (s.pc.toNat + 1)).toNat → decodeWord w = .ok i →
    step s = exec i { s with pc := s.pc + 2 } ∧ (s.pc + 2).toNat = s.pc.toNat + 2

/-- A fetch past the end of memory faults and does nothing else (40_cycle.md R66); the record is decision D6 of the spec. -/
def Obligations.FetchPastTheEndFaults : Prop :=
  ∀ s : State, s.run = .running → 4095 < s.pc.toNat + 1 →
    ∃ t, step s = .next t ∧ t.run = .faulted ∧ t.fault.kind = some .addressOutOfRange ∧ t.fault.pc = s.pc ∧
      t.fault.word = 0 ∧ t.fault.addr.toNat = max s.pc.toNat 4096 ∧ KeepsAllBut (fun p => p = .run ∨ p = .fault) s t

/-- A fetched illegal word faults and does nothing else (30_encoding.md R59); the record is decision D6 of the spec. -/
def Obligations.IllegalWordFaults : Prop :=
  ∀ s : State, s.run = .running → s.pc.toNat + 1 ≤ 4095 → illegalWord s.wordAtPc →
    ∃ t, step s = .next t ∧ t.run = .faulted ∧ t.fault.kind = some .unknownOpcode ∧ t.fault.pc = s.pc ∧
      t.fault.word = s.wordAtPc ∧ t.fault.addr = 0 ∧ KeepsAllBut (fun p => p = .run ∨ p = .fault) s t

/-- The block never stops by itself (40_cycle.md R71): every step of every state answers a next state, and leaves the
parameters alone. -/
def Obligations.EveryStepAnswersANextState : Prop :=
  ∀ s : State, ∃ t, step s = .next t ∧ t.cfg = s.cfg

/-- A cycle of a Running block faults exactly under the conditions of 60_exceptions.md R116, in the order of R121; a fault
changes nothing but `RUN` and `FAULT`, with the record of R115 and R117; without one the block stays Running. The
precise entry is decision D4 of the spec, the record D6, the order D22. -/
def Obligations.CycleFaultsExactlyAsListed : Prop :=
  ∀ s : State, s.run = .running →
    ∃ t, step s = .next t ∧
      (∀ f, cycleFault s = some f → t = { s with run := .faulted, fault := f }) ∧
      (cycleFault s = none → t.run = .running ∧ t.fault = s.fault)

/-- Where `pc` stands after a cycle that did not fault, by the instruction: the list of 10_state.md R18. -/
def Obligations.PcAfterACycle : Prop :=
  ∀ (s t : State) (i : Instr), Fetches s i → cycleFault s = none → step s = .next t → t.pc.toNat = pcAfter i s

/-- A state that ends a run (40_cycle.md R71) stands still: a Faulted block does nothing, and a self-jump jumps to itself
on every cycle. The definition of the end is decision D25 of the spec. -/
def Obligations.EndOfRunStandsStill : Prop :=
  ∀ s : State, endOfRun s = true → step s = .next s

/-! ## The invariant -/

/-- The invariant holds right after reset, whatever the parameters. -/
def Obligations.ResetMeetsTheInvariant : Prop :=
  (∀ cfg, Inv (State.resetWith cfg)) ∧ Inv State.reset

/-- Every step keeps the invariant: memory canonical, `pc` in 0..0x10FE and return addresses at most 4096 (10_state.md
R20), and the run state agreeing with the fault record (10_state.md R29). -/
def Obligations.EveryStepKeepsTheInvariant : Prop :=
  ∀ s t : State, Inv s → step s = .next t → Inv t

/-- Every host operation keeps the invariant. -/
def Obligations.EveryHostOperationKeepsTheInvariant : Prop :=
  ∀ (op : HostOp) (s t : State) (r : Reply), Inv s → hostStep op s = .next (t, r) → Inv t

/-- Every schedule of host operations runs to its end, and keeps the invariant and the parameters (40_cycle.md R64). -/
def Obligations.EveryScheduleRunsAndKeepsTheInvariant : Prop :=
  ∀ (ops : List HostOp) (s : State), ∃ t, hostRun ops s = .next t ∧ t.cfg = s.cfg ∧ (Inv s → Inv t)

/-! ## Whole-machine rules -/

/-- A cycle writes a V register only as its destination, as the flag VF, or in the block of FX65 (10_state.md R14, R15);
that no other instruction touches VF is decision D10 of the spec. -/
def Obligations.RegistersAreWrittenOnlyAsListed : Prop :=
  ∀ (s t : State) (i : Instr), Fetches s i → step s = .next t → ∀ r, ¬ MayWriteV i r → t.readV r = s.readV r

/-- A cycle writes `I` only by ANNN, FX1E and FX29 (10_state.md R21), the stack only by 2NNN and its pointer only by 2NNN
and 00EE (R22, R23), DT only by FX15 and ST only by FX18 (R24, R25), and never the keys (R26); a random byte is drawn only
by CXNN (R7). That no other instruction writes them is decision D10 of the spec, the stack's layout D14, the count of
draws the model's (log 4). -/
def Obligations.SpecialRegistersAreWrittenOnlyAsListed : Prop :=
  ∀ (s t : State) (i : Instr), Fetches s i → step s = .next t →
    ((∀ nnn, i ≠ .ldI nnn) → (∀ x, i ≠ .addI x) → (∀ x, i ≠ .ldF x) → t.i = s.i) ∧
    ((∀ nnn, i ≠ .call nnn) → (∀ k, t.stackAt k = s.stackAt k) ∧ (i ≠ .ret → t.sp = s.sp)) ∧
    ((∀ x, i ≠ .ldDTVx x) → t.dt = s.dt) ∧ ((∀ x, i ≠ .ldSTVx x) → t.st = s.st) ∧
    t.keys = s.keys ∧ ((∀ x nn, i ≠ .rnd x nn) → t.draws = s.draws)

/-- A cycle writes a byte of memory only by FX33 and FX55, at the addresses of 20_memory.md R45, and a pixel only by 00E0
and DXYN (10_state.md R27). That no other instruction writes them is decision D10 of the spec. -/
def Obligations.MemoryAndDisplayAreWrittenOnlyAsListed : Prop :=
  ∀ (s t : State) (i : Instr), Fetches s i → step s = .next t →
    (∀ a, ¬ storesTo i s a → t.readByte a = s.readByte a) ∧
    (i ≠ .cls → (∀ x y n, i ≠ .drw x y n) → ∀ p, t.pixel p = s.pixel p)

/-- At execute, an instruction takes its one fault of 60_exceptions.md R116 with the entry of R118, and otherwise raises
nothing. Precise entry is decision D4 of the spec, a key index above 15 D7, the record D6. -/
def Obligations.ExecuteFaultsAreTaken : Prop :=
  ∀ (i : Instr) (s : State),
    (∀ kind addr, executeFault i s = some (kind, addr) → Raises i s kind addr.toNat) ∧
    (executeFault i s = none → ∃ t, exec i s = .next t ∧ t.run = s.run ∧ t.fault = s.fault)

/-! ## Control flow -/

/-- 41_control_flow.md R77. -/
def Obligations.NopChangesNothing : Prop :=
  ∀ s : State, ∃ t, exec .nop s = .next t ∧ KeepsAllBut (fun _ => False) s t

/-- 41_control_flow.md R78: the top is popped into `pc` and keeps its value in the array (decision D14 of the spec); an empty
stack underflows. The fault's entry is decision D4, its record D6. -/
def Obligations.RetPopsOrUnderflows : Prop :=
  ∀ s : State,
    (∀ k : Fin 16, s.sp.val = k.val + 1 → ∃ t, exec .ret s = .next t ∧ t.pc = s.stackAt k ∧ t.sp.val = k.val ∧
      KeepsAllBut (fun p => p = .pc ∨ p = .sp) s t) ∧
    (s.sp.val = 0 → Raises .ret s .stackUnderflow 0)

/-- 41_control_flow.md R79: any target is accepted, odd and 0xFFF among them. -/
def Obligations.JpSetsPc : Prop :=
  ∀ (s : State) (nnn : Nnn), ∃ t, exec (.jp nnn) s = .next t ∧ t.pc.toNat = nnn.toNat ∧
    KeepsAllBut (fun p => p = .pc) s t

/-- 41_control_flow.md R80: the advanced `pc` is pushed; a full stack overflows. The stack's layout is decision D14 of the
spec, the fault's entry D4, its record D6. -/
def Obligations.CallPushesOrOverflows : Prop :=
  ∀ (s : State) (nnn : Nnn),
    (∀ k : Fin 16, s.sp.val = k.val → ∃ t, exec (.call nnn) s = .next t ∧ t.stackAt k = s.pc ∧
      t.sp.val = k.val + 1 ∧ t.pc.toNat = nnn.toNat ∧
      KeepsAllBut (fun p => p = .pc ∨ p = .sp ∨ p = .stack k) s t) ∧
    (s.sp.val = 16 → Raises (.call nnn) s .stackOverflow 0)

/-- 41_control_flow.md R81 to R84: each skip moves `pc` past one further instruction exactly when its comparison holds. -/
def Obligations.SkipsCompareRegisters : Prop :=
  ∀ (s : State) (x y : Reg) (nn : Byte),
    (∃ t, exec (.seImm x nn) s = .next t ∧ t.pc = (if s.readV x = nn then s.pc + 2 else s.pc) ∧
      KeepsAllBut (fun p => p = .pc) s t) ∧
    (∃ t, exec (.sneImm x nn) s = .next t ∧ t.pc = (if s.readV x = nn then s.pc else s.pc + 2) ∧
      KeepsAllBut (fun p => p = .pc) s t) ∧
    (∃ t, exec (.seReg x y) s = .next t ∧ t.pc = (if s.readV x = s.readV y then s.pc + 2 else s.pc) ∧
      KeepsAllBut (fun p => p = .pc) s t) ∧
    (∃ t, exec (.sneReg x y) s = .next t ∧ t.pc = (if s.readV x = s.readV y then s.pc else s.pc + 2) ∧
      KeepsAllBut (fun p => p = .pc) s t)

/-- 41_control_flow.md R85: always V0, and the sum does not wrap. -/
def Obligations.JpV0AddsV0 : Prop :=
  ∀ (s : State) (nnn : Nnn), ∃ t, exec (.jpV0 nnn) s = .next t ∧
    t.pc.toNat = (nnn.toNat + (s.readV 0).toNat) % 65536 ∧ t.pc.toNat ≤ 0x10FE ∧ KeepsAllBut (fun p => p = .pc) s t

/-! ## Register loads, arithmetic, logic, shifts, random -/

/-- 42_alu.md R88 and R90. -/
def Obligations.LoadsCopyIntoVx : Prop :=
  ∀ (s : State) (x y : Reg) (nn : Byte),
    (∃ t, exec (.ldImm x nn) s = .next t ∧ t.readV x = nn ∧ KeepsAllBut (fun p => p = .v x) s t) ∧
    (∃ t, exec (.ldReg x y) s = .next t ∧ t.readV x = s.readV y ∧ KeepsAllBut (fun p => p = .v x) s t)

/-- 42_alu.md R89: modulo 256; that VF is not written is decision D10 of the spec. -/
def Obligations.AddImmediateWrapsWithoutFlag : Prop :=
  ∀ (s : State) (x : Reg) (nn : Byte), ∃ t, exec (.addImm x nn) s = .next t ∧
    (t.readV x).toNat = ((s.readV x).toNat + nn.toNat) % 256 ∧ KeepsAllBut (fun p => p = .v x) s t

/-- 42_alu.md R91 to R93, bit by bit; that VF is not written is decision D10 of the spec. -/
def Obligations.LogicActsBitByBit : Prop :=
  ∀ (s : State) (x y : Reg),
    (∃ t, exec (.orReg x y) s = .next t ∧
      (∀ b, (t.readV x).getLsbD b = ((s.readV x).getLsbD b || (s.readV y).getLsbD b)) ∧
      KeepsAllBut (fun p => p = .v x) s t) ∧
    (∃ t, exec (.andReg x y) s = .next t ∧
      (∀ b, (t.readV x).getLsbD b = ((s.readV x).getLsbD b && (s.readV y).getLsbD b)) ∧
      KeepsAllBut (fun p => p = .v x) s t) ∧
    (∃ t, exec (.xorReg x y) s = .next t ∧
      (∀ b, (t.readV x).getLsbD b = ((s.readV x).getLsbD b ^^ (s.readV y).getLsbD b)) ∧
      KeepsAllBut (fun p => p = .v x) s t)

/-- 42_alu.md R94: the sum modulo 256, then VF the carry, which stays where VX is VF (decision D11 of the spec). -/
def Obligations.AddSetsCarry : Prop :=
  ∀ (s : State) (x y : Reg), ∃ t, exec (.addReg x y) s = .next t ∧
    (x ≠ regVF → (t.readV x).toNat = ((s.readV x).toNat + (s.readV y).toNat) % 256) ∧
    t.readV regVF = (if (s.readV x).toNat + (s.readV y).toNat > 255 then 1 else 0) ∧
    KeepsAllBut (fun p => p = .v x ∨ p = .v regVF) s t

/-- 42_alu.md R95 and R97: the difference modulo 256, then VF the not-borrow, 1 for equal operands (decision D28 of the
spec), which stays where VX is VF (D11). -/
def Obligations.SubtractionsSetNotBorrow : Prop :=
  ∀ (s : State) (x y : Reg),
    (∃ t, exec (.sub x y) s = .next t ∧
      (x ≠ regVF → ((t.readV x).toNat : Int) = ((s.readV x).toNat - (s.readV y).toNat : Int) % 256) ∧
      t.readV regVF = (if (s.readV x).toNat < (s.readV y).toNat then 0 else 1) ∧
      KeepsAllBut (fun p => p = .v x ∨ p = .v regVF) s t) ∧
    (∃ t, exec (.subn x y) s = .next t ∧
      (x ≠ regVF → ((t.readV x).toNat : Int) = ((s.readV y).toNat - (s.readV x).toNat : Int) % 256) ∧
      t.readV regVF = (if (s.readV y).toNat < (s.readV x).toNat then 0 else 1) ∧
      KeepsAllBut (fun p => p = .v x ∨ p = .v regVF) s t)

/-- 42_alu.md R96, both values of `SHIFT_USES_VY` (decision D27 of the spec): VF gets bit 0 of the source register, then VX
half the source register as that write left it (D11), which is 0 where the source is VF. -/
def Obligations.ShiftRightHalves : Prop :=
  ∀ (s : State) (x y src : Reg), src = (if s.cfg.shiftUsesVy = true then y else x) →
    ∃ t, exec (.shr x y) s = .next t ∧
      (x ≠ regVF → (t.readV regVF).toNat = (s.readV src).toNat % 2) ∧
      (src ≠ regVF → (t.readV x).toNat = (s.readV src).toNat / 2) ∧ (src = regVF → t.readV x = 0) ∧
      KeepsAllBut (fun p => p = .v x ∨ p = .v regVF) s t

/-- 42_alu.md R98, both values of `SHIFT_USES_VY` (decision D27 of the spec): VF gets bit 7 of the source register, then VX
twice the source register, modulo 256, as that write left it (D11), which is 2 or 0 where the source is VF. -/
def Obligations.ShiftLeftDoubles : Prop :=
  ∀ (s : State) (x y src : Reg), src = (if s.cfg.shiftUsesVy = true then y else x) →
    ∃ t, exec (.shl x y) s = .next t ∧
      (x ≠ regVF → (t.readV regVF).toNat = (s.readV src).toNat / 128) ∧
      (src ≠ regVF → (t.readV x).toNat = (s.readV src).toNat * 2 % 256) ∧
      (src = regVF → t.readV x = (if (s.readV src).toNat ≥ 128 then 2 else 0)) ∧
      KeepsAllBut (fun p => p = .v x ∨ p = .v regVF) s t

/-- 42_alu.md R99: one draw, masked. The draw is the free value of log 4: the statement holds for every value of `draws`,
and nothing is known of the byte. -/
def Obligations.RandomIsOneMaskedDraw : Prop :=
  ∀ (s : State) (x : Reg) (nn : Byte), ∃ t, exec (.rnd x nn) s = .next t ∧
    (∀ b, (t.readV x).getLsbD b = ((Config.randomByte s.draws).getLsbD b && nn.getLsbD b)) ∧
    t.draws = s.draws + 1 ∧ KeepsAllBut (fun p => p = .v x ∨ p = .draws) s t

/-! ## Index register and memory -/

/-- 43_index_memory.md R100 and R102: an address, and five times an unmasked digit. -/
def Obligations.IndexLoads : Prop :=
  ∀ (s : State) (x : Reg) (nnn : Nnn),
    (∃ t, exec (.ldI nnn) s = .next t ∧ t.i.toNat = nnn.toNat ∧ KeepsAllBut (fun p => p = .i) s t) ∧
    (∃ t, exec (.ldF x) s = .next t ∧ t.i.toNat = (s.readV x).toNat * 5 ∧ KeepsAllBut (fun p => p = .i) s t)

/-- 43_index_memory.md R101: modulo 65536; that VF is not written is decision D10 of the spec. -/
def Obligations.AddToIndexWrapsWithoutFlag : Prop :=
  ∀ (s : State) (x : Reg), ∃ t, exec (.addI x) s = .next t ∧
    t.i.toNat = (s.i.toNat + (s.readV x).toNat) % 65536 ∧ KeepsAllBut (fun p => p = .i) s t

/-- 43_index_memory.md R103: three digits at I, I + 1, I + 2, or AddressOutOfRange and nothing written. The check before any
write is decision D4 of the spec, the record D6. -/
def Obligations.BcdStoresThreeDigits : Prop :=
  ∀ (s : State) (x : Reg),
    (s.i.toNat + 2 ≤ 4095 → ∃ t, exec (.ldB x) s = .next t ∧
      (t.readByte s.i.toNat).toNat = (s.readV x).toNat / 100 ∧
      (t.readByte (s.i.toNat + 1)).toNat = (s.readV x).toNat / 10 % 10 ∧
      (t.readByte (s.i.toNat + 2)).toNat = (s.readV x).toNat % 10 ∧
      KeepsAllBut (fun p => ∃ k < 3, p = .byte (s.i.toNat + k)) s t) ∧
    (s.i.toNat + 2 > 4095 → Raises (.ldB x) s .addressOutOfRange (max s.i.toNat 4096))

/-- 43_index_memory.md R104: V0..VX at I and up, or AddressOutOfRange and nothing written; that I is unchanged is decision
D10 of the spec, the check before any write D4, the record D6. -/
def Obligations.StoreWritesTheBlock : Prop :=
  ∀ (s : State) (x : Reg),
    (s.i.toNat + x.val ≤ 4095 → ∃ t, exec (.stRegs x) s = .next t ∧
      (∀ r : Reg, r ≤ x → t.readByte (s.i.toNat + r.val) = s.readV r) ∧
      KeepsAllBut (fun p => ∃ r : Reg, r ≤ x ∧ p = .byte (s.i.toNat + r.val)) s t) ∧
    (s.i.toNat + x.val > 4095 → Raises (.stRegs x) s .addressOutOfRange (max s.i.toNat 4096))

/-- 43_index_memory.md R105: V0..VX from I and up, or AddressOutOfRange and nothing loaded; that I is unchanged is decision
D10 of the spec, the check before any write D4, the record D6. -/
def Obligations.LoadReadsTheBlock : Prop :=
  ∀ (s : State) (x : Reg),
    (s.i.toNat + x.val ≤ 4095 → ∃ t, exec (.ldRegs x) s = .next t ∧
      (∀ r : Reg, r ≤ x → t.readV r = s.readByte (s.i.toNat + r.val)) ∧
      KeepsAllBut (fun p => ∃ r : Reg, r ≤ x ∧ p = .v r) s t) ∧
    (s.i.toNat + x.val > 4095 → Raises (.ldRegs x) s .addressOutOfRange (max s.i.toNat 4096))

/-- The round trip of 43_index_memory.md R105: a block stored and, with the same I and those bytes not written in between,
loaded again restores the registers, whatever happened to them and to everything else in between. -/
def Obligations.StoreThenLoadRestoresRegisters : Prop :=
  ∀ (s t u : State) (x : Reg), s.i.toNat + x.val ≤ 4095 → exec (.stRegs x) s = .next t → u.i = t.i →
    (∀ r : Reg, r ≤ x → u.readByte (t.i.toNat + r.val) = t.readByte (t.i.toNat + r.val)) →
    ∃ w, exec (.ldRegs x) u = .next w ∧ ∀ r : Reg, r ≤ x → w.readV r = s.readV r

/-- 20_memory.md R53, 70_reset_and_hazards.md R137: a word stored by FX55 is the word a cycle fetches there (decision D21 of
the spec). -/
def Obligations.StoredCodeIsFetched : Prop :=
  ∀ (s t : State) (x r q : Reg) (pc : Word), s.i.toNat + x.val ≤ 4095 → exec (.stRegs x) s = .next t →
    q.val = r.val + 1 → q ≤ x → pc.toNat = s.i.toNat + r.val →
    ∃ w, (t.setPc pc).fetchWord = .ok w ∧ w.toNat = (s.readV r).toNat * 256 + (s.readV q).toNat

/-- 20_memory.md R41: a read returns the byte last written at its address, and a write stores nowhere else. -/
def Obligations.ReadReturnsTheLastWrite : Prop :=
  ∀ (s : State) (a b : Nat) (v : Byte), a ≤ 4095 →
    (s.writeByte a v).readByte a = v ∧ (b ≠ a → (s.writeByte a v).readByte b = s.readByte b)

/-- The model's choice of memory as data: canonical memories that read the same everywhere are equal. -/
def Obligations.EqualReadsMakeEqualMemories : Prop :=
  ∀ (cfg : Config) (m m' : Memory), Memory.wf cfg m → Memory.wf cfg m' →
    (∀ a < 4096, Memory.read cfg m a = Memory.read cfg m' a) → m = m'

/-! ## Display -/

/-- 44_display.md R106; that VF is not written is decision D10 of the spec. -/
def Obligations.ClearTurnsEveryPixelOff : Prop :=
  ∀ s : State, ∃ t, exec .cls s = .next t ∧ (∀ p, t.pixel p = false) ∧ KeepsAllBut (fun q => ∃ p, q = .pixel p) s t

/-- 44_display.md R107: the covered pixels are flipped and no other, VF is 1 exactly when one of them was lit, and a sprite
that runs past memory faults with nothing drawn. The check before any write is decision D4 of the spec, the record D6, DXY0
D13. -/
def Obligations.DrawFlipsAndReportsCollision : Prop :=
  ∀ (s : State) (x y : Reg) (n : Nat), n ≤ 15 →
    (n = 0 ∨ s.i.toNat + n - 1 ≤ 4095 → ∃ t, exec (.drw x y n) s = .next t ∧
      (∀ p, Covered s x y n p → t.pixel p = !s.pixel p) ∧
      ((∃ p, Covered s x y n p ∧ s.pixel p = true) → t.readV regVF = 1) ∧
      ((¬ ∃ p, Covered s x y n p ∧ s.pixel p = true) → t.readV regVF = 0) ∧
      KeepsAllBut (fun q => q = .v regVF ∨ ∃ p, Covered s x y n p ∧ q = .pixel p) s t) ∧
    (n > 0 ∧ s.i.toNat + n - 1 > 4095 → Raises (.drw x y n) s .addressOutOfRange (max s.i.toNat 4096))

/-- 44_display.md R108 (3): the same sprite drawn twice at the same origin restores the display, and the second draw
collides exactly when it covers a pixel that was dark before the first. -/
def Obligations.DrawTwiceRestoresTheDisplay : Prop :=
  ∀ (s t u : State) (x y : Reg) (n : Nat), n ≤ 15 → (n = 0 ∨ s.i.toNat + n - 1 ≤ 4095) → x ≠ regVF → y ≠ regVF →
    exec (.drw x y n) s = .next t → KeepsAllBut (fun p => p = .pc) t u →
    ∃ w, exec (.drw x y n) u = .next w ∧ (∀ p, w.pixel p = s.pixel p) ∧
      (w.readV regVF = 1 ↔ ∃ p, Covered s x y n p ∧ s.pixel p = false)

/-! ## Keys and timers -/

/-- 45_timers_keys.md R109 and R110: the skips test the level of the key named by the value of VX; an index above 15 is
AddressOutOfRange (decision D7 of the spec), with the entry of D4 and the record of D6. -/
def Obligations.KeySkipsTestTheLevel : Prop :=
  ∀ (s : State) (x : Reg),
    ((s.readV x).toNat ≤ 15 →
      (∃ t, exec (.skp x) s = .next t ∧
        t.pc = (if s.keyPressed (s.readV x).toNat = true then s.pc + 2 else s.pc) ∧
        KeepsAllBut (fun p => p = .pc) s t) ∧
      (∃ t, exec (.sknp x) s = .next t ∧
        t.pc = (if s.keyPressed (s.readV x).toNat = true then s.pc else s.pc + 2) ∧
        KeepsAllBut (fun p => p = .pc) s t)) ∧
    ((s.readV x).toNat > 15 →
      Raises (.skp x) s .addressOutOfRange (s.readV x).toNat ∧
      Raises (.sknp x) s .addressOutOfRange (s.readV x).toNat)

/-- 45_timers_keys.md R111, R113, R114. -/
def Obligations.TimerAccessCopies : Prop :=
  ∀ (s : State) (x : Reg),
    (∃ t, exec (.ldVxDT x) s = .next t ∧ t.readV x = s.dt ∧ KeepsAllBut (fun p => p = .v x) s t) ∧
    (∃ t, exec (.ldDTVx x) s = .next t ∧ t.dt = s.readV x ∧ KeepsAllBut (fun p => p = .dt) s t) ∧
    (∃ t, exec (.ldSTVx x) s = .next t ∧ t.st = s.readV x ∧ KeepsAllBut (fun p => p = .st) s t)

/-- 45_timers_keys.md R112: the lowest pressed key, or `pc` back at this instruction and nothing else (decision D15 of the
spec). -/
def Obligations.KeyWaitTakesTheLowestKeyOrRetries : Prop :=
  ∀ (s : State) (x : Reg),
    (∀ k < 16, s.keyPressed k = true → (∀ j < k, s.keyPressed j = false) →
      ∃ t, exec (.ldVxK x) s = .next t ∧ (t.readV x).toNat = k ∧ KeepsAllBut (fun p => p = .v x) s t) ∧
    ((∀ k < 16, s.keyPressed k = false) →
      ∃ t, exec (.ldVxK x) s = .next t ∧ t.pc = s.pc - 2 ∧ KeepsAllBut (fun p => p = .pc) s t)

/-! ## Host operations -/

/-- 60_exceptions.md R124: each timer down by exactly 1 while above 0, floored at 0; nothing in the Faulted run state
(decision D5 of the spec). -/
def Obligations.TickCountsDownToZero : Prop :=
  ∀ s : State,
    (s.run = .running → ∃ t, hostStep .tick s = .next (t, .status none) ∧ t.dt.toNat = s.dt.toNat - 1 ∧
      t.st.toNat = s.st.toNat - 1 ∧ KeepsAllBut (fun p => p = .dt ∨ p = .st) s t) ∧
    (s.run = .faulted → hostStep .tick s = .next (s, .status s.fault.kind))

/-- 40_cycle.md R72: one key's level, in both run states; an index above 15 changes nothing and does not fault the run
(decision D8 of the spec). -/
def Obligations.SetKeyWritesOneLevel : Prop :=
  ∀ (s : State) (k : Nat) (pressed : Bool),
    (k ≤ 15 → ∃ t, hostStep (.setKey k pressed) s = .next (t, .status none) ∧ t.keyPressed k = pressed ∧
      KeepsAllBut (fun p => p = .key k) s t) ∧
    (k > 15 → hostStep (.setKey k pressed) s = .next (s, .status (some .addressOutOfRange)))

/-- 20_memory.md R50: the program region is fully replaced and nothing else changes (decision D9 of the spec); a longer
program is ProgramTooLarge, with memory unchanged; nothing in the Faulted run state. -/
def Obligations.LoadRomReplacesTheProgramRegion : Prop :=
  ∀ (s : State) (rom : List Byte),
    (s.run = .running → 512 + rom.length ≤ 4096 →
      ∃ t, hostStep (.loadRom rom) s = .next (t, .status none) ∧
        (∀ k b, rom[k]? = some b → t.readByte (512 + k) = b) ∧
        (∀ a, 512 + rom.length ≤ a → a ≤ 4095 → t.readByte a = 0) ∧
        KeepsAllBut (fun p => ∃ a, 512 ≤ a ∧ p = .byte a) s t) ∧
    (s.run = .running → 512 + rom.length > 4096 →
      ∃ t, hostStep (.loadRom rom) s = .next (t, .status (some .programTooLarge)) ∧ t.run = .faulted ∧
        t.fault.kind = some .programTooLarge ∧ t.fault.pc = s.pc ∧ t.fault.word = 0 ∧ t.fault.addr = 0 ∧
        KeepsAllBut (fun p => p = .run ∨ p = .fault) s t) ∧
    (s.run = .faulted → hostStep (.loadRom rom) s = .next (s, .status s.fault.kind))

/-- 40_cycle.md R73: the 2048 pixels as they are, no change, in both run states. -/
def Obligations.GetDisplayReturnsThePixels : Prop :=
  ∀ s : State, ∃ d : Pixels, hostStep .getDisplay s = .next (s, .display d) ∧ ∀ p, d.getLsbD p = s.pixel p

/-- The Faulted run state is sticky (60_exceptions.md R119, R120; decision D5 of the spec): CYCLE, TICK and LOAD_ROM do
nothing and return the recorded kind, SET_KEY, GET_DISPLAY and OBSERVE leave it Faulted with the same record, and RESET
alone returns it to Running. -/
def Obligations.FaultedIsStickyUntilReset : Prop :=
  ∀ s : State, s.run = .faulted →
    hostStep .cycle s = .next (s, .status s.fault.kind) ∧
    hostStep .tick s = .next (s, .status s.fault.kind) ∧
    (∀ rom, hostStep (.loadRom rom) s = .next (s, .status s.fault.kind)) ∧
    (∀ op t r, op ≠ .reset → hostStep op s = .next (t, r) → t.run = .faulted ∧ t.fault = s.fault) ∧
    (∃ t, hostStep .reset s = .next (t, .done) ∧ t.run = .running)

/-- 70_reset_and_hazards.md R128, 10_state.md R32: every piece of state after RESET, from any state and for any font. The
values of `pc` and the font are the source's; the rest are decision D2 of the spec; that RESET keeps the parameters and
the count of draws is the model's (logs 2, 3, 4). -/
def Obligations.ResetSetsEveryPieceOfState : Prop :=
  ∀ s : State, ∃ t, hostStep .reset s = .next (t, .done) ∧
    t.pc.toNat = 512 ∧ (∀ r, t.readV r = 0) ∧ t.i = 0 ∧ t.sp.val = 0 ∧ (∀ k, t.stackAt k = 0) ∧ t.dt = 0 ∧ t.st = 0 ∧
    (∀ k, t.keyPressed k = false) ∧ (∀ p, t.pixel p = false) ∧
    (∀ a : Fin 80, t.readByte a.val = s.cfg.font[a.val]) ∧ (∀ a, 80 ≤ a → a ≤ 4095 → t.readByte a = 0) ∧
    t.run = .running ∧ t.fault.kind = none ∧ t.fault.pc = 0 ∧ t.fault.word = 0 ∧ t.fault.addr = 0 ∧
    t.cfg = s.cfg ∧ t.draws = s.draws

/-- 70_reset_and_hazards.md R129, R130: after RESET and LOAD_ROM of a program of at least one word, from any state, the
block is Running and the next cycle fetches the program's first word, at 512. -/
def Obligations.BootFetchesTheFirstWord : Prop :=
  ∀ (s : State) (hi lo : Byte) (rest : List Byte), rest.length ≤ 3582 →
    ∃ t w, hostRun [.reset, .loadRom (hi :: lo :: rest)] s = .next t ∧ t.run = .running ∧ t.pc.toNat = 512 ∧
      t.fetchWord = .ok w ∧ w.toNat = hi.toNat * 256 + lo.toNat

/-- The model's stand-in for a loaded program (log 7): a word stored where the block fetches is the word its next step runs,
and in a Running block that can fetch nothing but those two bytes is changed. -/
def Obligations.StoredWordIsRunNext : Prop :=
  ∀ (s : State) (w : Nat) (i : Instr), decodeTableWord 16 w = some i →
    step (s.withFetchWord 16 w) = exec i (s.withFetchWord 16 w).advance ∧
    (s.run = .running → s.pc.toNat + 1 ≤ 4095 →
      KeepsAllBut (fun p => p = .byte s.pc.toNat ∨ p = .byte (s.pc.toNat + 1)) s (s.withFetchWord 16 w))
end

