-- ==== Sys2Proof/Laws/Decode.lean ====
section
/-! SUPPORT. The fields of a word and the words of the formats, as numbers (30_encoding.md R56). -/

namespace Sys2Proof

theorem fieldN1_eq (w : Word) : fieldN1 w = w.toNat / 4096 := by
  have := w.isLt
  simp only [fieldN1, BitVec.extractLsb'_toNat, Nat.shiftRight_eq_div_pow]
  omega

theorem fieldX_val (w : Word) : (fieldX w).val = w.toNat / 256 % 16 := by
  show (w.extractLsb' 8 4).toNat = _
  simp only [BitVec.extractLsb'_toNat, Nat.shiftRight_eq_div_pow]

theorem fieldY_val (w : Word) : (fieldY w).val = w.toNat / 16 % 16 := by
  show (w.extractLsb' 4 4).toNat = _
  simp only [BitVec.extractLsb'_toNat, Nat.shiftRight_eq_div_pow]

theorem fieldN_eq (w : Word) : fieldN w = w.toNat % 16 := by
  simp only [fieldN, BitVec.extractLsb'_toNat, Nat.shiftRight_eq_div_pow]
  omega

theorem fieldNN_toNat (w : Word) : (fieldNN w).toNat = w.toNat % 256 := by
  simp only [fieldNN, BitVec.extractLsb'_toNat, Nat.shiftRight_eq_div_pow]
  omega

theorem fieldNNN_toNat (w : Word) : (fieldNNN w).toNat = w.toNat % 4096 := by
  simp only [fieldNNN, BitVec.extractLsb'_toNat, Nat.shiftRight_eq_div_pow]
  omega

theorem toNat_append_eq {m n : Nat} (a : BitVec m) (b : BitVec n) : (a ++ b).toNat = a.toNat * 2 ^ n + b.toNat := by
  rw [BitVec.toNat_append, ← Nat.shiftLeft_add_eq_or_of_lt b.isLt, Nat.shiftLeft_eq]

theorem formatNNN_toNat (h : BitVec 4) (nnn : Nnn) : (formatNNN h nnn).toNat = h.toNat * 4096 + nnn.toNat :=
  toNat_append_eq h nnn

theorem formatXNN_toNat (h : BitVec 4) (x : Reg) (nn : Byte) :
    (formatXNN h x nn).toNat = h.toNat * 4096 + x.val * 256 + nn.toNat := by
  show ((h ++ BitVec.ofNat 4 x) ++ nn).toNat = _
  have := x.isLt
  rw [toNat_append_eq, toNat_append_eq, BitVec.toNat_ofNat]
  omega

theorem formatXYN_toNat (h : BitVec 4) (x y : Reg) (n : BitVec 4) :
    (formatXYN h x y n).toNat = h.toNat * 4096 + x.val * 256 + y.val * 16 + n.toNat := by
  show ((h ++ BitVec.ofNat 4 x) ++ (BitVec.ofNat 4 y ++ n)).toNat = _
  have := x.isLt
  have := y.isLt
  rw [toNat_append_eq, toNat_append_eq, toNat_append_eq, BitVec.toNat_ofNat, BitVec.toNat_ofNat]
  omega

/-! ### The fields of the formats, and a word rebuilt from its fields -/

theorem fields_formatNNN (h : BitVec 4) (nnn : Nnn) :
    fieldN1 (formatNNN h nnn) = h.toNat ∧ fieldNNN (formatNNN h nnn) = nnn := by
  have := h.isLt
  have := nnn.isLt
  refine ⟨?_, BitVec.eq_of_toNat_eq ?_⟩
  · rw [fieldN1_eq, formatNNN_toNat]
    omega
  · rw [fieldNNN_toNat, formatNNN_toNat]
    omega

theorem fields_formatXNN (h : BitVec 4) (x : Reg) (nn : Byte) :
    fieldN1 (formatXNN h x nn) = h.toNat ∧ fieldX (formatXNN h x nn) = x ∧ fieldNN (formatXNN h x nn) = nn := by
  have := h.isLt
  have := nn.isLt
  have := x.isLt
  refine ⟨?_, Fin.ext ?_, BitVec.eq_of_toNat_eq ?_⟩
  · rw [fieldN1_eq, formatXNN_toNat]
    omega
  · rw [fieldX_val, formatXNN_toNat]
    omega
  · rw [fieldNN_toNat, formatXNN_toNat]
    omega

theorem fields_formatXYN (h : BitVec 4) (x y : Reg) (n : BitVec 4) :
    fieldN1 (formatXYN h x y n) = h.toNat ∧ fieldX (formatXYN h x y n) = x ∧ fieldY (formatXYN h x y n) = y ∧
      fieldN (formatXYN h x y n) = n.toNat := by
  have := h.isLt
  have := n.isLt
  have := x.isLt
  have := y.isLt
  refine ⟨?_, Fin.ext ?_, Fin.ext ?_, ?_⟩
  · rw [fieldN1_eq, formatXYN_toNat]
    omega
  · rw [fieldX_val, formatXYN_toNat]
    omega
  · rw [fieldY_val, formatXYN_toNat]
    omega
  · rw [fieldN_eq, formatXYN_toNat]
    omega

theorem formatNNN_fields {h : BitVec 4} {w : Word} (hh : fieldN1 w = h.toNat) : formatNNN h (fieldNNN w) = w := by
  apply BitVec.eq_of_toNat_eq
  rw [formatNNN_toNat, fieldNNN_toNat, ← hh, fieldN1_eq]
  omega

theorem formatXNN_fields {h : BitVec 4} {w : Word} (hh : fieldN1 w = h.toNat) :
    formatXNN h (fieldX w) (fieldNN w) = w := by
  apply BitVec.eq_of_toNat_eq
  rw [formatXNN_toNat, fieldNN_toNat, fieldX_val, ← hh, fieldN1_eq]
  omega

theorem formatXYN_fields {h n : BitVec 4} {w : Word} (hh : fieldN1 w = h.toNat) (hn : fieldN w = n.toNat) :
    formatXYN h (fieldX w) (fieldY w) n = w := by
  apply BitVec.eq_of_toNat_eq
  rw [formatXYN_toNat, fieldY_val, fieldX_val, ← hh, ← hn, fieldN1_eq, fieldN_eq]
  omega

/-- A word is big-endian bytes: the first is the high one (20_memory.md R40). -/
theorem wordOfBytes_toNat (hi lo : Byte) : (wordOfBytes hi lo).toNat = hi.toNat * 256 + lo.toNat :=
  toNat_append_eq hi lo

/-- A word laid out as its two bytes reads back. -/
theorem wordOfBytes_high_low (w : Word) : wordOfBytes (highByte w) (lowByte w) = w := by
  apply BitVec.eq_of_toNat_eq
  have := w.isLt
  rw [wordOfBytes_toNat]
  simp only [highByte, lowByte, BitVec.extractLsb'_toNat, Nat.shiftRight_eq_div_pow]
  omega

end Sys2Proof
end

