-- ==== Sys2Proof/Laws/State.lean ====
section
/-! SUPPORT. For each update of the state, one lemma per field and per read: no later proof unfolds a record update. -/

namespace Sys2Proof.Machine.State

variable (s : State)

/-! ### writeV -/

@[simp] theorem writeV_v (x : Reg) (b : Byte) : (s.writeV x b).v = s.v.set x.val b := rfl
@[simp] theorem writeV_pc (x : Reg) (b : Byte) : (s.writeV x b).pc = s.pc := rfl
@[simp] theorem writeV_i (x : Reg) (b : Byte) : (s.writeV x b).i = s.i := rfl
@[simp] theorem writeV_sp (x : Reg) (b : Byte) : (s.writeV x b).sp = s.sp := rfl
@[simp] theorem writeV_stack (x : Reg) (b : Byte) : (s.writeV x b).stack = s.stack := rfl
@[simp] theorem writeV_dt (x : Reg) (b : Byte) : (s.writeV x b).dt = s.dt := rfl
@[simp] theorem writeV_st (x : Reg) (b : Byte) : (s.writeV x b).st = s.st := rfl
@[simp] theorem writeV_keys (x : Reg) (b : Byte) : (s.writeV x b).keys = s.keys := rfl
@[simp] theorem writeV_disp (x : Reg) (b : Byte) : (s.writeV x b).disp = s.disp := rfl
@[simp] theorem writeV_mem (x : Reg) (b : Byte) : (s.writeV x b).mem = s.mem := rfl
@[simp] theorem writeV_run (x : Reg) (b : Byte) : (s.writeV x b).run = s.run := rfl
@[simp] theorem writeV_fault (x : Reg) (b : Byte) : (s.writeV x b).fault = s.fault := rfl
@[simp] theorem writeV_draws (x : Reg) (b : Byte) : (s.writeV x b).draws = s.draws := rfl
@[simp] theorem writeV_cfg (x : Reg) (b : Byte) : (s.writeV x b).cfg = s.cfg := rfl
@[simp] theorem writeV_stackAt (x : Reg) (b : Byte) (k : Fin 16) : (s.writeV x b).stackAt k = s.stackAt k := rfl
@[simp] theorem writeV_keyPressed (x : Reg) (b : Byte) (k : Nat) : (s.writeV x b).keyPressed k = s.keyPressed k := rfl
@[simp] theorem writeV_pixel (x : Reg) (b : Byte) (p : Nat) : (s.writeV x b).pixel p = s.pixel p := rfl
@[simp] theorem writeV_readByte (x : Reg) (b : Byte) (a : Nat) : (s.writeV x b).readByte a = s.readByte a := rfl

/-! ### setPc -/

@[simp] theorem setPc_v (w : Word) : (s.setPc w).v = s.v := rfl
@[simp] theorem setPc_pc (w : Word) : (s.setPc w).pc = w := rfl
@[simp] theorem setPc_i (w : Word) : (s.setPc w).i = s.i := rfl
@[simp] theorem setPc_sp (w : Word) : (s.setPc w).sp = s.sp := rfl
@[simp] theorem setPc_stack (w : Word) : (s.setPc w).stack = s.stack := rfl
@[simp] theorem setPc_dt (w : Word) : (s.setPc w).dt = s.dt := rfl
@[simp] theorem setPc_st (w : Word) : (s.setPc w).st = s.st := rfl
@[simp] theorem setPc_keys (w : Word) : (s.setPc w).keys = s.keys := rfl
@[simp] theorem setPc_disp (w : Word) : (s.setPc w).disp = s.disp := rfl
@[simp] theorem setPc_mem (w : Word) : (s.setPc w).mem = s.mem := rfl
@[simp] theorem setPc_run (w : Word) : (s.setPc w).run = s.run := rfl
@[simp] theorem setPc_fault (w : Word) : (s.setPc w).fault = s.fault := rfl
@[simp] theorem setPc_draws (w : Word) : (s.setPc w).draws = s.draws := rfl
@[simp] theorem setPc_cfg (w : Word) : (s.setPc w).cfg = s.cfg := rfl
@[simp] theorem setPc_readV (w : Word) (r : Reg) : (s.setPc w).readV r = s.readV r := rfl
@[simp] theorem setPc_stackAt (w : Word) (k : Fin 16) : (s.setPc w).stackAt k = s.stackAt k := rfl
@[simp] theorem setPc_keyPressed (w : Word) (k : Nat) : (s.setPc w).keyPressed k = s.keyPressed k := rfl
@[simp] theorem setPc_pixel (w : Word) (p : Nat) : (s.setPc w).pixel p = s.pixel p := rfl
@[simp] theorem setPc_readByte (w : Word) (a : Nat) : (s.setPc w).readByte a = s.readByte a := rfl

/-! ### setI -/

@[simp] theorem setI_v (w : Word) : (s.setI w).v = s.v := rfl
@[simp] theorem setI_pc (w : Word) : (s.setI w).pc = s.pc := rfl
@[simp] theorem setI_i (w : Word) : (s.setI w).i = w := rfl
@[simp] theorem setI_sp (w : Word) : (s.setI w).sp = s.sp := rfl
@[simp] theorem setI_stack (w : Word) : (s.setI w).stack = s.stack := rfl
@[simp] theorem setI_dt (w : Word) : (s.setI w).dt = s.dt := rfl
@[simp] theorem setI_st (w : Word) : (s.setI w).st = s.st := rfl
@[simp] theorem setI_keys (w : Word) : (s.setI w).keys = s.keys := rfl
@[simp] theorem setI_disp (w : Word) : (s.setI w).disp = s.disp := rfl
@[simp] theorem setI_mem (w : Word) : (s.setI w).mem = s.mem := rfl
@[simp] theorem setI_run (w : Word) : (s.setI w).run = s.run := rfl
@[simp] theorem setI_fault (w : Word) : (s.setI w).fault = s.fault := rfl
@[simp] theorem setI_draws (w : Word) : (s.setI w).draws = s.draws := rfl
@[simp] theorem setI_cfg (w : Word) : (s.setI w).cfg = s.cfg := rfl
@[simp] theorem setI_readV (w : Word) (r : Reg) : (s.setI w).readV r = s.readV r := rfl
@[simp] theorem setI_stackAt (w : Word) (k : Fin 16) : (s.setI w).stackAt k = s.stackAt k := rfl
@[simp] theorem setI_keyPressed (w : Word) (k : Nat) : (s.setI w).keyPressed k = s.keyPressed k := rfl
@[simp] theorem setI_pixel (w : Word) (p : Nat) : (s.setI w).pixel p = s.pixel p := rfl
@[simp] theorem setI_readByte (w : Word) (a : Nat) : (s.setI w).readByte a = s.readByte a := rfl

/-! ### setDT -/

@[simp] theorem setDT_v (b : Byte) : (s.setDT b).v = s.v := rfl
@[simp] theorem setDT_pc (b : Byte) : (s.setDT b).pc = s.pc := rfl
@[simp] theorem setDT_i (b : Byte) : (s.setDT b).i = s.i := rfl
@[simp] theorem setDT_sp (b : Byte) : (s.setDT b).sp = s.sp := rfl
@[simp] theorem setDT_stack (b : Byte) : (s.setDT b).stack = s.stack := rfl
@[simp] theorem setDT_dt (b : Byte) : (s.setDT b).dt = b := rfl
@[simp] theorem setDT_st (b : Byte) : (s.setDT b).st = s.st := rfl
@[simp] theorem setDT_keys (b : Byte) : (s.setDT b).keys = s.keys := rfl
@[simp] theorem setDT_disp (b : Byte) : (s.setDT b).disp = s.disp := rfl
@[simp] theorem setDT_mem (b : Byte) : (s.setDT b).mem = s.mem := rfl
@[simp] theorem setDT_run (b : Byte) : (s.setDT b).run = s.run := rfl
@[simp] theorem setDT_fault (b : Byte) : (s.setDT b).fault = s.fault := rfl
@[simp] theorem setDT_draws (b : Byte) : (s.setDT b).draws = s.draws := rfl
@[simp] theorem setDT_cfg (b : Byte) : (s.setDT b).cfg = s.cfg := rfl
@[simp] theorem setDT_readV (b : Byte) (r : Reg) : (s.setDT b).readV r = s.readV r := rfl
@[simp] theorem setDT_stackAt (b : Byte) (k : Fin 16) : (s.setDT b).stackAt k = s.stackAt k := rfl
@[simp] theorem setDT_keyPressed (b : Byte) (k : Nat) : (s.setDT b).keyPressed k = s.keyPressed k := rfl
@[simp] theorem setDT_pixel (b : Byte) (p : Nat) : (s.setDT b).pixel p = s.pixel p := rfl
@[simp] theorem setDT_readByte (b : Byte) (a : Nat) : (s.setDT b).readByte a = s.readByte a := rfl

/-! ### setST -/

@[simp] theorem setST_v (b : Byte) : (s.setST b).v = s.v := rfl
@[simp] theorem setST_pc (b : Byte) : (s.setST b).pc = s.pc := rfl
@[simp] theorem setST_i (b : Byte) : (s.setST b).i = s.i := rfl
@[simp] theorem setST_sp (b : Byte) : (s.setST b).sp = s.sp := rfl
@[simp] theorem setST_stack (b : Byte) : (s.setST b).stack = s.stack := rfl
@[simp] theorem setST_dt (b : Byte) : (s.setST b).dt = s.dt := rfl
@[simp] theorem setST_st (b : Byte) : (s.setST b).st = b := rfl
@[simp] theorem setST_keys (b : Byte) : (s.setST b).keys = s.keys := rfl
@[simp] theorem setST_disp (b : Byte) : (s.setST b).disp = s.disp := rfl
@[simp] theorem setST_mem (b : Byte) : (s.setST b).mem = s.mem := rfl
@[simp] theorem setST_run (b : Byte) : (s.setST b).run = s.run := rfl
@[simp] theorem setST_fault (b : Byte) : (s.setST b).fault = s.fault := rfl
@[simp] theorem setST_draws (b : Byte) : (s.setST b).draws = s.draws := rfl
@[simp] theorem setST_cfg (b : Byte) : (s.setST b).cfg = s.cfg := rfl
@[simp] theorem setST_readV (b : Byte) (r : Reg) : (s.setST b).readV r = s.readV r := rfl
@[simp] theorem setST_stackAt (b : Byte) (k : Fin 16) : (s.setST b).stackAt k = s.stackAt k := rfl
@[simp] theorem setST_keyPressed (b : Byte) (k : Nat) : (s.setST b).keyPressed k = s.keyPressed k := rfl
@[simp] theorem setST_pixel (b : Byte) (p : Nat) : (s.setST b).pixel p = s.pixel p := rfl
@[simp] theorem setST_readByte (b : Byte) (a : Nat) : (s.setST b).readByte a = s.readByte a := rfl

/-! ### setDisp -/

@[simp] theorem setDisp_v (d : Pixels) : (s.setDisp d).v = s.v := rfl
@[simp] theorem setDisp_pc (d : Pixels) : (s.setDisp d).pc = s.pc := rfl
@[simp] theorem setDisp_i (d : Pixels) : (s.setDisp d).i = s.i := rfl
@[simp] theorem setDisp_sp (d : Pixels) : (s.setDisp d).sp = s.sp := rfl
@[simp] theorem setDisp_stack (d : Pixels) : (s.setDisp d).stack = s.stack := rfl
@[simp] theorem setDisp_dt (d : Pixels) : (s.setDisp d).dt = s.dt := rfl
@[simp] theorem setDisp_st (d : Pixels) : (s.setDisp d).st = s.st := rfl
@[simp] theorem setDisp_keys (d : Pixels) : (s.setDisp d).keys = s.keys := rfl
@[simp] theorem setDisp_disp (d : Pixels) : (s.setDisp d).disp = d := rfl
@[simp] theorem setDisp_mem (d : Pixels) : (s.setDisp d).mem = s.mem := rfl
@[simp] theorem setDisp_run (d : Pixels) : (s.setDisp d).run = s.run := rfl
@[simp] theorem setDisp_fault (d : Pixels) : (s.setDisp d).fault = s.fault := rfl
@[simp] theorem setDisp_draws (d : Pixels) : (s.setDisp d).draws = s.draws := rfl
@[simp] theorem setDisp_cfg (d : Pixels) : (s.setDisp d).cfg = s.cfg := rfl
@[simp] theorem setDisp_readV (d : Pixels) (r : Reg) : (s.setDisp d).readV r = s.readV r := rfl
@[simp] theorem setDisp_stackAt (d : Pixels) (k : Fin 16) : (s.setDisp d).stackAt k = s.stackAt k := rfl
@[simp] theorem setDisp_keyPressed (d : Pixels) (k : Nat) : (s.setDisp d).keyPressed k = s.keyPressed k := rfl
@[simp] theorem setDisp_readByte (d : Pixels) (a : Nat) : (s.setDisp d).readByte a = s.readByte a := rfl

/-! ### countDraw -/

@[simp] theorem countDraw_v : (s.countDraw).v = s.v := rfl
@[simp] theorem countDraw_pc : (s.countDraw).pc = s.pc := rfl
@[simp] theorem countDraw_i : (s.countDraw).i = s.i := rfl
@[simp] theorem countDraw_sp : (s.countDraw).sp = s.sp := rfl
@[simp] theorem countDraw_stack : (s.countDraw).stack = s.stack := rfl
@[simp] theorem countDraw_dt : (s.countDraw).dt = s.dt := rfl
@[simp] theorem countDraw_st : (s.countDraw).st = s.st := rfl
@[simp] theorem countDraw_keys : (s.countDraw).keys = s.keys := rfl
@[simp] theorem countDraw_disp : (s.countDraw).disp = s.disp := rfl
@[simp] theorem countDraw_mem : (s.countDraw).mem = s.mem := rfl
@[simp] theorem countDraw_run : (s.countDraw).run = s.run := rfl
@[simp] theorem countDraw_fault : (s.countDraw).fault = s.fault := rfl
@[simp] theorem countDraw_draws : (s.countDraw).draws = s.draws + 1 := rfl
@[simp] theorem countDraw_cfg : (s.countDraw).cfg = s.cfg := rfl
@[simp] theorem countDraw_readV (r : Reg) : (s.countDraw).readV r = s.readV r := rfl
@[simp] theorem countDraw_stackAt (k : Fin 16) : (s.countDraw).stackAt k = s.stackAt k := rfl
@[simp] theorem countDraw_keyPressed (k : Nat) : (s.countDraw).keyPressed k = s.keyPressed k := rfl
@[simp] theorem countDraw_pixel (p : Nat) : (s.countDraw).pixel p = s.pixel p := rfl
@[simp] theorem countDraw_readByte (a : Nat) : (s.countDraw).readByte a = s.readByte a := rfl

/-! ### writeByte -/

@[simp] theorem writeByte_v (n : Nat) (b : Byte) : (s.writeByte n b).v = s.v := rfl
@[simp] theorem writeByte_pc (n : Nat) (b : Byte) : (s.writeByte n b).pc = s.pc := rfl
@[simp] theorem writeByte_i (n : Nat) (b : Byte) : (s.writeByte n b).i = s.i := rfl
@[simp] theorem writeByte_sp (n : Nat) (b : Byte) : (s.writeByte n b).sp = s.sp := rfl
@[simp] theorem writeByte_stack (n : Nat) (b : Byte) : (s.writeByte n b).stack = s.stack := rfl
@[simp] theorem writeByte_dt (n : Nat) (b : Byte) : (s.writeByte n b).dt = s.dt := rfl
@[simp] theorem writeByte_st (n : Nat) (b : Byte) : (s.writeByte n b).st = s.st := rfl
@[simp] theorem writeByte_keys (n : Nat) (b : Byte) : (s.writeByte n b).keys = s.keys := rfl
@[simp] theorem writeByte_disp (n : Nat) (b : Byte) : (s.writeByte n b).disp = s.disp := rfl
@[simp] theorem writeByte_mem (n : Nat) (b : Byte) : (s.writeByte n b).mem = Memory.write s.cfg s.mem n b := rfl
@[simp] theorem writeByte_run (n : Nat) (b : Byte) : (s.writeByte n b).run = s.run := rfl
@[simp] theorem writeByte_fault (n : Nat) (b : Byte) : (s.writeByte n b).fault = s.fault := rfl
@[simp] theorem writeByte_draws (n : Nat) (b : Byte) : (s.writeByte n b).draws = s.draws := rfl
@[simp] theorem writeByte_cfg (n : Nat) (b : Byte) : (s.writeByte n b).cfg = s.cfg := rfl
@[simp] theorem writeByte_readV (n : Nat) (b : Byte) (r : Reg) : (s.writeByte n b).readV r = s.readV r := rfl
@[simp] theorem writeByte_stackAt (n : Nat) (b : Byte) (k : Fin 16) : (s.writeByte n b).stackAt k = s.stackAt k := rfl
@[simp] theorem writeByte_keyPressed (n : Nat) (b : Byte) (k : Nat) : (s.writeByte n b).keyPressed k = s.keyPressed k := rfl
@[simp] theorem writeByte_pixel (n : Nat) (b : Byte) (p : Nat) : (s.writeByte n b).pixel p = s.pixel p := rfl

/-! ### takeFault -/

@[simp] theorem takeFault_v (kd : FaultKind) (p0 w ad : Word) : (s.takeFault kd p0 w ad).v = s.v := rfl
@[simp] theorem takeFault_pc (kd : FaultKind) (p0 w ad : Word) : (s.takeFault kd p0 w ad).pc = p0 := rfl
@[simp] theorem takeFault_i (kd : FaultKind) (p0 w ad : Word) : (s.takeFault kd p0 w ad).i = s.i := rfl
@[simp] theorem takeFault_sp (kd : FaultKind) (p0 w ad : Word) : (s.takeFault kd p0 w ad).sp = s.sp := rfl
@[simp] theorem takeFault_stack (kd : FaultKind) (p0 w ad : Word) : (s.takeFault kd p0 w ad).stack = s.stack := rfl
@[simp] theorem takeFault_dt (kd : FaultKind) (p0 w ad : Word) : (s.takeFault kd p0 w ad).dt = s.dt := rfl
@[simp] theorem takeFault_st (kd : FaultKind) (p0 w ad : Word) : (s.takeFault kd p0 w ad).st = s.st := rfl
@[simp] theorem takeFault_keys (kd : FaultKind) (p0 w ad : Word) : (s.takeFault kd p0 w ad).keys = s.keys := rfl
@[simp] theorem takeFault_disp (kd : FaultKind) (p0 w ad : Word) : (s.takeFault kd p0 w ad).disp = s.disp := rfl
@[simp] theorem takeFault_mem (kd : FaultKind) (p0 w ad : Word) : (s.takeFault kd p0 w ad).mem = s.mem := rfl
@[simp] theorem takeFault_run (kd : FaultKind) (p0 w ad : Word) : (s.takeFault kd p0 w ad).run = .faulted := rfl
@[simp] theorem takeFault_fault (kd : FaultKind) (p0 w ad : Word) : (s.takeFault kd p0 w ad).fault = { kind := some kd, pc := p0, word := w, addr := ad } := rfl
@[simp] theorem takeFault_draws (kd : FaultKind) (p0 w ad : Word) : (s.takeFault kd p0 w ad).draws = s.draws := rfl
@[simp] theorem takeFault_cfg (kd : FaultKind) (p0 w ad : Word) : (s.takeFault kd p0 w ad).cfg = s.cfg := rfl
@[simp] theorem takeFault_readV (kd : FaultKind) (p0 w ad : Word) (r : Reg) : (s.takeFault kd p0 w ad).readV r = s.readV r := rfl
@[simp] theorem takeFault_stackAt (kd : FaultKind) (p0 w ad : Word) (k : Fin 16) : (s.takeFault kd p0 w ad).stackAt k = s.stackAt k := rfl
@[simp] theorem takeFault_keyPressed (kd : FaultKind) (p0 w ad : Word) (k : Nat) : (s.takeFault kd p0 w ad).keyPressed k = s.keyPressed k := rfl
@[simp] theorem takeFault_pixel (kd : FaultKind) (p0 w ad : Word) (p : Nat) : (s.takeFault kd p0 w ad).pixel p = s.pixel p := rfl
@[simp] theorem takeFault_readByte (kd : FaultKind) (p0 w ad : Word) (a : Nat) : (s.takeFault kd p0 w ad).readByte a = s.readByte a := rfl

/-! ### Updates that are another update -/

@[simp] theorem setVF_eq (b : Byte) : s.setVF b = s.writeV regVF b := rfl

@[simp] theorem advance_eq : s.advance = s.setPc (s.pc + 2) := rfl

@[simp] theorem raiseFault_eq (j : Instr) (kd : FaultKind) (ad : Word) :
    s.raiseFault j kd ad = s.takeFault kd (s.pc - 2) (encode j) ad := rfl

/-! ### Reading back a write -/

/-- Every V register reads back the last value written, and a write reaches no other (10_state.md R13). -/
theorem writeV_readV (x r : Reg) (b : Byte) : (s.writeV x b).readV r = if r = x then b else s.readV r := by
  unfold writeV readV
  rw [Vector.getElem_set]
  by_cases h : r = x
  · simp [h]
  · have : ¬ x.val = r.val := fun e => h (Fin.ext e.symm)
    simp [h, this]

@[simp] theorem writeV_readV_self (x : Reg) (b : Byte) : (s.writeV x b).readV x = b := by
  simp [writeV_readV]

theorem writeV_readV_ne {x r : Reg} (b : Byte) (h : r ≠ x) : (s.writeV x b).readV r = s.readV r := by
  simp [writeV_readV, h]

@[simp] theorem setDisp_pixel (d : Pixels) (p : Nat) : (s.setDisp d).pixel p = d.getLsbD p := rfl

@[simp] theorem setPc_setPc (a b : Word) : (s.setPc a).setPc b = s.setPc b := rfl

@[simp] theorem setPc_self : s.setPc s.pc = s := rfl

end Sys2Proof.Machine.State
end

