-- ==== Sys2Proof/Laws/Display.lean ====
section
/-! SUPPORT. The display store (20_memory.md R49) and the pixels of a sprite (44_display.md R107, R108). -/

namespace Sys2Proof.Machine

/-- Every pixel the core forms lies on the display (20_memory.md R49). -/
theorem pixelIndex_lt (x y : Nat) : pixelIndex x y < 2048 := by
  unfold pixelIndex
  omega

/-- `DispXor(p)` flips pixel `p` and no other. -/
theorem flipPixel_getLsbD (d : Pixels) {p : Nat} (hp : p < 2048) (q : Nat) :
    (flipPixel d p).getLsbD q = (d.getLsbD q ^^ decide (q = p)) := by
  unfold flipPixel
  rw [BitVec.getLsbD_xor, BitVec.getLsbD_twoPow]
  by_cases e : p = q
  · simp [← e, hp]
  · have e' : ¬ q = p := fun c => e c.symm
    simp [e, e']

theorem drawPixels_nil (d : Pixels) : drawPixels d [] = (d, false) := rfl

/-- Drawing distinct pixels flips each of them and no other. -/
theorem foldl_drawPixel_fst (ps : List Nat) (acc : Pixels × Bool) (hn : ps.Nodup) (hp : ∀ p ∈ ps, p < 2048) (q : Nat) :
    (ps.foldl drawPixel acc).1.getLsbD q = (acc.1.getLsbD q ^^ decide (q ∈ ps)) := by
  induction ps generalizing acc with
  | nil => simp
  | cons p ps ih =>
    obtain ⟨hnot, hn'⟩ := List.nodup_cons.1 hn
    rw [List.foldl_cons, ih _ hn' (fun r hr => hp r (List.mem_cons_of_mem _ hr))]
    show ((flipPixel acc.1 p).getLsbD q ^^ _) = _
    rw [flipPixel_getLsbD _ (hp p List.mem_cons_self)]
    by_cases e : q = p
    · subst e
      simp [hnot]
    · simp [e]

/-- The collision is whether any of the distinct pixels was lit before. -/
theorem foldl_drawPixel_snd (ps : List Nat) (acc : Pixels × Bool) (hn : ps.Nodup) (hp : ∀ p ∈ ps, p < 2048) :
    (ps.foldl drawPixel acc).2 = (acc.2 || ps.any (fun p => acc.1.getLsbD p)) := by
  induction ps generalizing acc with
  | nil => simp
  | cons p ps ih =>
    obtain ⟨hnot, hn'⟩ := List.nodup_cons.1 hn
    rw [List.foldl_cons, ih _ hn' (fun r hr => hp r (List.mem_cons_of_mem _ hr))]
    have same : ps.any (fun r => (flipPixel acc.1 p).getLsbD r) = ps.any (fun r => acc.1.getLsbD r) := by
      rw [Bool.eq_iff_iff, List.any_eq_true, List.any_eq_true]
      constructor <;> rintro ⟨r, hr, h⟩ <;> refine ⟨r, hr, ?_⟩ <;>
        · have ne : r ≠ p := fun c => hnot (c ▸ hr)
          rw [flipPixel_getLsbD _ (hp p List.mem_cons_self)] at *
          simpa [ne] using h
    show ((acc.2 || acc.1.getLsbD p) || ps.any (fun r => (flipPixel acc.1 p).getLsbD r)) = _
    rw [same, List.any_cons, Bool.or_assoc]

theorem drawPixels_fst (d : Pixels) {ps : List Nat} (hn : ps.Nodup) (hp : ∀ p ∈ ps, p < 2048) (q : Nat) :
    (drawPixels d ps).1.getLsbD q = (d.getLsbD q ^^ decide (q ∈ ps)) :=
  foldl_drawPixel_fst ps (d, false) hn hp q

theorem drawPixels_snd (d : Pixels) {ps : List Nat} (hn : ps.Nodup) (hp : ∀ p ∈ ps, p < 2048) :
    (drawPixels d ps).2 = ps.any (fun p => d.getLsbD p) := by
  unfold drawPixels
  rw [foldl_drawPixel_snd ps (d, false) hn hp, Bool.false_or]

/-! ### The pixels of a sprite -/

theorem mem_rowPixels {ox oy r : Nat} {row : Byte} {p : Nat} :
    p ∈ rowPixels ox oy r row ↔ ∃ c < 8, row.getLsbD (7 - c) = true ∧ p = pixelIndex (ox + c) (oy + r) := by
  unfold rowPixels
  simp only [List.mem_map, List.mem_filter, List.mem_range]
  exact ⟨fun ⟨c, ⟨hc, hb⟩, e⟩ => ⟨c, hc, hb, e.symm⟩, fun ⟨c, hc, hb, e⟩ => ⟨c, ⟨hc, hb⟩, e.symm⟩⟩

/-- A pixel of the sprite: row `r + k`, column `c`, whose bit is set. -/
theorem mem_spritePixels {ox oy r : Nat} {rows : List Byte} {p : Nat} :
    p ∈ spritePixels ox oy r rows ↔
      ∃ k row, rows[k]? = some row ∧ ∃ c < 8, row.getLsbD (7 - c) = true ∧ p = pixelIndex (ox + c) (oy + (r + k)) := by
  induction rows generalizing r with
  | nil => simp [spritePixels]
  | cons row rows ih =>
    unfold spritePixels
    rw [List.mem_append, mem_rowPixels, ih]
    constructor
    · rintro (⟨c, h⟩ | ⟨k, row', hk, c, hc, hb, e⟩)
      · exact ⟨0, row, rfl, c, h⟩
      · exact ⟨k + 1, row', hk, c, hc, hb, by rw [e]; congr 1; omega⟩
    · rintro ⟨k, row', hk, c, hc, hb, e⟩
      cases k with
      | zero =>
        simp only [List.getElem?_cons_zero, Option.some.injEq] at hk
        subst hk
        exact .inl ⟨c, hc, hb, e⟩
      | succ k =>
        exact .inr ⟨k, row', by simpa using hk, c, hc, hb, by rw [e]; congr 1; omega⟩

theorem spritePixels_lt {ox oy r : Nat} {rows : List Byte} {p : Nat} (h : p ∈ spritePixels ox oy r rows) : p < 2048 := by
  obtain ⟨k, row, _, c, _, _, e⟩ := mem_spritePixels.1 h
  exact e ▸ pixelIndex_lt _ _

theorem rowPixels_nodup (ox oy r : Nat) (row : Byte) : (rowPixels ox oy r row).Nodup := by
  unfold rowPixels
  refine List.Pairwise.map _ (R := fun c d => c ≠ d ∧ c < 8 ∧ d < 8) ?_ ?_
  · rintro c d ⟨hne, hc, hd⟩ e
    unfold pixelIndex at e
    omega
  · refine List.Pairwise.imp_of_mem (R := fun c d => c ≠ d) ?_ (List.nodup_range.filter _)
    intro c d hc hd hne
    simp only [List.mem_filter, List.mem_range] at hc hd
    exact ⟨hne, hc.1, hd.1⟩

/-- No pixel is visited twice by a sprite of at most 32 rows, so by no DXYN (44_display.md R108). -/
theorem spritePixels_nodup (ox oy r : Nat) (rows : List Byte) (h : rows.length ≤ 32) :
    (spritePixels ox oy r rows).Nodup := by
  induction rows generalizing r with
  | nil => simp [spritePixels]
  | cons row rows ih =>
    simp only [List.length_cons] at h
    unfold spritePixels
    refine List.nodup_append.2 ⟨rowPixels_nodup ox oy r row, ih _ (by omega), fun p hp q hq e => ?_⟩
    obtain ⟨c, hc, _, e1⟩ := mem_rowPixels.1 hp
    obtain ⟨k, row', hk, d, hd, _, e2⟩ := mem_spritePixels.1 hq
    obtain ⟨hk', _⟩ := List.getElem?_eq_some_iff.1 hk
    unfold pixelIndex at e1 e2
    omega

end Sys2Proof.Machine
end

