-- ==== Sys2Proof/Laws/Memory.lean ====
section
/-! SUPPORT. Memory (20_memory.md R41): a read after a write, the canonical form is kept by every write, and equal reads
make equal memories. -/

namespace Sys2Proof.Machine

/-! ### The list operations -/

theorem Memory.find_insert (m : Memory) (a a' : Nat) (b : Byte) :
    Memory.find a' (Memory.insert a b m) = if a' = a then some b else Memory.find a' m := by
  induction m with
  | nil => by_cases e : a = a' <;> simp [Memory.insert, Memory.find, e, eq_comm]
  | cons c m ih =>
    unfold Memory.insert
    split
    · by_cases e : a = a' <;> simp [Memory.find, e, eq_comm]
    · split
      · next e => by_cases e' : a = a' <;> simp [Memory.find, e, e', eq_comm]
      · next hne =>
        rw [Memory.find, ih, Memory.find]
        by_cases e : c.1 = a'
        · have : ¬ a' = a := by omega
          simp [e, this]
        · simp [e]

theorem Memory.find_erase (m : Memory) (a a' : Nat) :
    Memory.find a' (Memory.erase a m) = if a' = a then none else Memory.find a' m := by
  induction m with
  | nil => simp [Memory.erase, Memory.find]
  | cons c m ih =>
    unfold Memory.erase at ih ⊢
    by_cases e : c.1 = a
    · rw [List.filter_cons_of_neg (by simp [e]), ih, Memory.find]
      by_cases e' : a' = a
      · simp [e']
      · have : ¬ c.1 = a' := by omega
        simp [this]
    · rw [List.filter_cons_of_pos (by simp [e]), Memory.find, ih, Memory.find]
      by_cases e' : c.1 = a'
      · have : ¬ a' = a := by omega
        simp [e', this]
      · simp [e']

theorem Memory.mem_insert {m : Memory} {a : Nat} {b : Byte} {c : Host.Cell} (h : c ∈ Memory.insert a b m) :
    c = (a, b) ∨ c ∈ m := by
  induction m with
  | nil => simpa [Memory.insert] using h
  | cons d m ih =>
    unfold Memory.insert at h
    split at h
    · simpa using h
    · split at h
      · rcases List.mem_cons.1 h with h | h
        · exact .inl h
        · exact .inr (List.mem_cons_of_mem _ h)
      · rcases List.mem_cons.1 h with h | h
        · exact .inr (h ▸ List.mem_cons_self)
        · exact (ih h).imp_right (List.mem_cons_of_mem _)

theorem Memory.insert_sorted {m : Memory} (a : Nat) (b : Byte) (h : m.Pairwise (fun c d => c.1 < d.1)) :
    (Memory.insert a b m).Pairwise (fun c d => c.1 < d.1) := by
  induction m with
  | nil => simp [Memory.insert]
  | cons c m ih =>
    obtain ⟨hc, hm⟩ := List.pairwise_cons.1 h
    unfold Memory.insert
    split
    · next hlt =>
      refine List.pairwise_cons.2 ⟨fun d hd => ?_, h⟩
      rcases List.mem_cons.1 hd with rfl | hd
      · exact hlt
      · exact Nat.lt_trans hlt (hc d hd)
    · split
      · next he => exact List.pairwise_cons.2 ⟨fun d hd => he ▸ hc d hd, hm⟩
      · next hge hne =>
        refine List.pairwise_cons.2 ⟨fun d hd => ?_, ih hm⟩
        rcases Memory.mem_insert hd with rfl | hd
        · show c.1 < a
          omega
        · exact hc d hd

/-! ### Reads and writes -/

/-- A read returns the byte last written at its address, and a write reaches no other (20_memory.md R41). -/
theorem Memory.read_write (cfg : Config) (m : Memory) (a a' : Nat) (b : Byte) :
    Memory.read cfg (Memory.write cfg m a b) a' = if a' = a then b else Memory.read cfg m a' := by
  unfold Memory.read Memory.write
  split
  · next hb =>
    rw [Memory.find_erase]
    by_cases e : a' = a <;> simp [e, hb]
  · rw [Memory.find_insert]
    by_cases e : a' = a <;> simp [e]

/-- A write inside the store keeps the canonical form. -/
theorem Memory.write_wf {cfg : Config} {m : Memory} (h : Memory.wf cfg m) {a : Nat} (ha : a < 4096) (b : Byte) :
    Memory.wf cfg (Memory.write cfg m a b) := by
  unfold Memory.write
  split
  · exact ⟨h.1.filter _, fun c hc => h.2 c (List.mem_filter.1 hc).1⟩
  · next hb =>
    refine ⟨Memory.insert_sorted a b h.1, fun c hc => ?_⟩
    rcases Memory.mem_insert hc with rfl | hc
    · exact ⟨ha, hb⟩
    · exact h.2 c hc

theorem Memory.nil_wf (cfg : Config) : Memory.wf cfg [] := by simp [Memory.wf]

theorem Memory.filter_wf {cfg : Config} {m : Memory} (h : Memory.wf cfg m) (p : Host.Cell → Bool) :
    Memory.wf cfg (m.filter p) :=
  ⟨h.1.filter _, fun c hc => h.2 c (List.mem_filter.1 hc).1⟩

/-- A listed byte is found. -/
theorem Memory.find_of_mem {m : Memory} (h : m.Pairwise (fun c d => c.1 < d.1)) {c : Host.Cell} (hc : c ∈ m) :
    Memory.find c.1 m = some c.2 := by
  induction m with
  | nil => simp at hc
  | cons d m ih =>
    obtain ⟨hd, hm⟩ := List.pairwise_cons.1 h
    rcases List.mem_cons.1 hc with rfl | hc
    · simp [Memory.find]
    · have := hd c hc
      have hne : ¬ d.1 = c.1 := by omega
      simp [Memory.find, hne, ih hm hc]

/-- What is found is listed. -/
theorem Memory.mem_of_find {m : Memory} {a : Nat} {b : Byte} (h : Memory.find a m = some b) : (a, b) ∈ m := by
  induction m with
  | nil => simp [Memory.find] at h
  | cons c m ih =>
    unfold Memory.find at h
    split at h
    · next e =>
      obtain rfl := Option.some.inj h
      exact e ▸ List.mem_cons_self
    · exact List.mem_cons_of_mem _ (ih h)

namespace State

/-- `read_byte` after `write_byte` (20_memory.md R41). -/
theorem readByte_writeByte (s : State) (a a' : Nat) (b : Byte) :
    (s.writeByte a b).readByte a' = if a' = a then b else s.readByte a' :=
  Memory.read_write s.cfg s.mem a a' b

/-! ### Writing several bytes -/

/-- What a run of byte writes leaves alone: everything but memory. -/
theorem writeBytes_eq (s : State) (a : Nat) (bs : List Byte) :
    s.writeBytes a bs = { s with mem := (s.writeBytes a bs).mem } := by
  induction bs generalizing s a with
  | nil => rfl
  | cons b bs ih =>
    show (s.writeByte a b).writeBytes (a + 1) bs = _
    rw [ih]
    rfl

/-- A run of byte writes inside the store keeps the canonical form. -/
theorem writeBytes_wf {s : State} (h : Memory.wf s.cfg s.mem) {a : Nat} {bs : List Byte} (ha : a + bs.length ≤ 4096) :
    Memory.wf s.cfg (s.writeBytes a bs).mem := by
  induction bs generalizing s a with
  | nil => exact h
  | cons b bs ih =>
    simp only [List.length_cons] at ha
    exact ih (s := s.writeByte a b) (Memory.write_wf h (by omega) b) (by omega)

/-- Every byte of a run reads back, and every other byte reads as before. -/
theorem readByte_writeBytes (s : State) (a : Nat) (bs : List Byte) (a' : Nat) :
    (s.writeBytes a bs).readByte a' = if a ≤ a' then (bs[a' - a]?).getD (s.readByte a') else s.readByte a' := by
  induction bs generalizing s a with
  | nil => simp [writeBytes]
  | cons b bs ih =>
    show ((s.writeByte a b).writeBytes (a + 1) bs).readByte a' = _
    rw [ih, readByte_writeByte]
    by_cases e : a' = a
    · have : ¬ a + 1 ≤ a := by omega
      simp [e, this]
    · by_cases le : a ≤ a'
      · have le' : a + 1 ≤ a' := by omega
        have hk : a' - a = (a' - (a + 1)) + 1 := by omega
        simp [e, le, le', hk]
      · have le' : ¬ a + 1 ≤ a' := by omega
        simp [e, le, le']

end State

end Sys2Proof.Machine
end

