-- ==== Sys2Proof/Laws/Ops.lean ====
section
/-! SUPPORT. What each shared operation does, said once: range checks, multi-byte access, fetch, the stack, the key scan,
the register block. -/

namespace Sys2Proof.Machine

/-! ### The range check (20_memory.md R42, R43) -/

theorem accessError_eq_none {base : Word} {n : Nat} :
    accessError base n = none ↔ n = 0 ∨ base.toNat + n ≤ 4096 := by
  unfold accessError
  split <;> simp_all

theorem accessError_eq_some {base a : Word} {n : Nat} :
    accessError base n = some a ↔ (0 < n ∧ 4096 < base.toNat + n) ∧ a = BitVec.ofNat 16 (max base.toNat 4096) := by
  unfold accessError
  split
  · simp; omega
  · simp [eq_comm]; omega

/-- The reported address is `max(base, 4096)` (60_exceptions.md R117): it fits in 16 bits. -/
theorem toNat_offending (base : Word) : (BitVec.ofNat 16 (max base.toNat 4096)).toNat = max base.toNat 4096 := by
  have := base.isLt
  rw [BitVec.toNat_ofNat, Nat.mod_eq_of_lt]
  omega

/-! ### Zero extension (30_encoding.md R57) and the BCD digits (43_index_memory.md R103) -/

@[simp] theorem zextNnn_toNat (nnn : Nnn) : (zextNnn nnn).toNat = nnn.toNat := by
  have := nnn.isLt
  unfold zextNnn
  simp only [BitVec.toNat_setWidth]
  omega

@[simp] theorem zextByte_toNat (b : Byte) : (zextByte b).toNat = b.toNat := by
  have := b.isLt
  unfold zextByte
  simp only [BitVec.toNat_setWidth]
  omega

@[simp] theorem bcdDigits_length (b : Byte) : (bcdDigits b).length = 3 := rfl

namespace State

/-! ### Multi-byte access (20_memory.md R42) -/

@[simp] theorem readBytes_length (s : State) (a n : Nat) : (s.readBytes a n).length = n := by
  simp [readBytes]

theorem readBytes_getElem? (s : State) (a n k : Nat) :
    (s.readBytes a n)[k]? = if k < n then some (s.readByte (a + k)) else none := by
  unfold readBytes
  rw [List.getElem?_map]
  by_cases h : k < n
  · simp [h]
  · simp [h]

/-- A read answers the bytes when every address is in the store, and otherwise the offending address. -/
theorem memRead_eq_ok {s : State} {base : Word} {n : Nat} {bs : List Byte} :
    s.memRead base n = .ok bs ↔ (n = 0 ∨ base.toNat + n ≤ 4096) ∧ bs = s.readBytes base.toNat n := by
  unfold memRead
  split
  · next h => have := (accessError_eq_some.1 h).1; simp; omega
  · next h => simp [accessError_eq_none.1 h, eq_comm]

theorem memRead_eq_error {s : State} {base a : Word} {n : Nat} :
    s.memRead base n = .error a ↔
      (0 < n ∧ 4096 < base.toNat + n) ∧ a = BitVec.ofNat 16 (max base.toNat 4096) := by
  unfold memRead
  split
  · next h => have := accessError_eq_some.1 h; simp [this, eq_comm]
  · next h => have := accessError_eq_none.1 h; simp; omega

/-- A write changes memory when every address is in the store, and otherwise answers the offending address. -/
theorem memWrite_eq_ok {s t : State} {base : Word} {bs : List Byte} :
    s.memWrite base bs = .ok t ↔ (bs.length = 0 ∨ base.toNat + bs.length ≤ 4096) ∧ t = s.writeBytes base.toNat bs := by
  unfold memWrite
  split
  · next h =>
    obtain ⟨⟨h1, h2⟩, _⟩ := accessError_eq_some.1 h
    exact ⟨fun c => (nomatch c), fun c => absurd c.1 (by omega)⟩
  · next h =>
    have := accessError_eq_none.1 h
    exact ⟨fun c => ⟨this, (Except.ok.inj c).symm⟩, fun c => congrArg _ c.2.symm⟩

theorem memWrite_eq_error {s : State} {base a : Word} {bs : List Byte} :
    s.memWrite base bs = .error a ↔
      (0 < bs.length ∧ 4096 < base.toNat + bs.length) ∧ a = BitVec.ofNat 16 (max base.toNat 4096) := by
  unfold memWrite
  split
  · next h =>
    have := accessError_eq_some.1 h
    exact ⟨fun c => ⟨this.1, Except.error.inj c ▸ this.2⟩, fun c => congrArg _ (this.2.trans c.2.symm)⟩
  · next h =>
    have := accessError_eq_none.1 h
    exact ⟨fun c => (nomatch c), fun c => absurd c.1 (by omega)⟩

/-! ### Fetch (20_memory.md R40) -/

theorem fetchWord_eq_ok {s : State} {w : Word} :
    s.fetchWord = .ok w ↔
      s.pc.toNat + 1 ≤ 4095 ∧ w = wordOfBytes (s.readByte s.pc.toNat) (s.readByte (s.pc.toNat + 1)) := by
  unfold fetchWord
  split
  · next h => have := (accessError_eq_some.1 h).1; simp; omega
  · next h =>
    have := accessError_eq_none.1 h
    have h' : s.pc.toNat + 1 ≤ 4095 := by omega
    simp [h', eq_comm]

theorem fetchWord_eq_error {s : State} {a : Word} :
    s.fetchWord = .error a ↔ 4095 < s.pc.toNat + 1 ∧ a = BitVec.ofNat 16 (max s.pc.toNat 4096) := by
  unfold fetchWord
  split
  · next h => obtain ⟨h1, h2⟩ := accessError_eq_some.1 h; simp [h2, eq_comm]; omega
  · next h => have := accessError_eq_none.1 h; simp; omega

/-! ### The stack (10_state.md R22, R23) -/

theorem push_eq_none {s : State} {a : Word} : s.push a = none ↔ s.sp.val = 16 := by
  unfold push
  have := s.sp.isLt
  split <;> simp <;> omega

theorem push_eq_some {s t : State} {a : Word} :
    s.push a = some t ↔ ∃ h : s.sp.val < 16,
      t = { s with stack := s.stack.set s.sp.val a, sp := ⟨s.sp.val + 1, by omega⟩ } := by
  unfold push
  split
  · next h => simp [h, eq_comm]
  · next h => simp [h]

theorem pop_eq_none {s : State} : s.pop = none ↔ s.sp.val = 0 := by
  unfold pop
  split <;> simp <;> omega

theorem pop_eq_some {s t : State} {a : Word} :
    s.pop = some (a, t) ↔ ∃ h : 0 < s.sp.val,
      a = s.stackAt ⟨s.sp.val - 1, by omega⟩ ∧ t = { s with sp := ⟨s.sp.val - 1, by omega⟩ } := by
  unfold pop
  split
  · next h => simp [h, eq_comm]
  · next h => simp [h]

/-! ### The skip (41_control_flow.md R76) -/

theorem skip_eq (s : State) (c : Bool) : s.skip c = s.setPc (if c then s.pc + 2 else s.pc) := by
  cases c <;> rfl

/-! ### The key scan (45_timers_keys.md R112) and the key index (R109, R110) -/

theorem lowestKey_eq_some {s : State} {k : Nat} :
    s.lowestKey = some k ↔ k < 16 ∧ s.keyPressed k = true ∧ ∀ j < k, s.keyPressed j = false := by
  unfold lowestKey
  rw [List.find?_range_eq_some]
  simp only [List.mem_range, Bool.not_eq_true']
  exact ⟨fun ⟨a, b, c⟩ => ⟨b, a, c⟩, fun ⟨a, b, c⟩ => ⟨b, a, c⟩⟩

theorem lowestKey_eq_none {s : State} : s.lowestKey = none ↔ ∀ k < 16, s.keyPressed k = false := by
  unfold lowestKey
  simp

theorem keyIndex_eq_ok {s : State} {x : Reg} {k : Nat} :
    s.keyIndex x = .ok k ↔ (s.readV x).toNat ≤ 15 ∧ k = (s.readV x).toNat := by
  unfold keyIndex
  split
  · simp; omega
  · simp [eq_comm]; omega

theorem keyIndex_eq_error {s : State} {x : Reg} {a : Word} :
    s.keyIndex x = .error a ↔ 15 < (s.readV x).toNat ∧ a = zextByte (s.readV x) := by
  unfold keyIndex
  split
  · simp [eq_comm]; omega
  · simp; omega

/-! ### The register block (43_index_memory.md R104, R105) -/

@[simp] theorem regBlock_length (s : State) (x : Reg) : (s.regBlock x).length = x.val + 1 := by
  unfold regBlock
  rw [List.length_take, Vector.length_toList]
  omega

theorem regBlock_getElem? (s : State) (x r : Reg) (h : r ≤ x) : (s.regBlock x)[r.val]? = some (s.readV r) := by
  unfold regBlock readV
  have : r.val < x.val + 1 := Nat.lt_succ_of_le h
  rw [List.getElem?_take_of_lt this]
  simp

/-- A block load changes the V registers alone. -/
theorem loadBlock_eq (s : State) (k : Nat) (bs : List Byte) :
    s.loadBlock k bs = { s with v := (s.loadBlock k bs).v } := by
  induction bs generalizing s k with
  | nil => rfl
  | cons b bs ih =>
    unfold loadBlock
    split
    · rw [ih]; rfl
    · exact ih _ _

/-- Register `r` gets byte `r - k` of a block loaded from register `k` on, where there is one. -/
theorem loadBlock_readV (s : State) (k : Nat) (bs : List Byte) (r : Reg) :
    (s.loadBlock k bs).readV r = if k ≤ r.val then (bs[r.val - k]?).getD (s.readV r) else s.readV r := by
  induction bs generalizing s k with
  | nil => simp [loadBlock]
  | cons b bs ih =>
    unfold loadBlock
    rw [ih]
    have hr := r.isLt
    by_cases h : k < 16
    · rw [dif_pos h, writeV_readV]
      by_cases e : r = ⟨k, h⟩
      · subst e
        have : ¬ k + 1 ≤ k := by omega
        simp [this]
      · have ne : r.val ≠ k := fun c => e (Fin.ext c)
        by_cases le : k ≤ r.val
        · have le' : k + 1 ≤ r.val := by omega
          have hk : r.val - k = (r.val - (k + 1)) + 1 := by omega
          simp [e, le, le', hk]
        · have le' : ¬ k + 1 ≤ r.val := by omega
          simp [e, le, le']
    · have le : ¬ k ≤ r.val := by omega
      have le' : ¬ k + 1 ≤ r.val := by omega
      simp [h, le, le']

end State

end Sys2Proof.Machine
end

