-- ==== Sys2Proof/Laws/Frames.lean ====
section
/-! SUPPORT. What each update of the state leaves alone, in the words of the claims (`KeepsAllBut`). -/

namespace Sys2Proof.Machine.State

variable (s : State)

theorem setPc_keeps (a : Word) : KeepsAllBut (fun p => p = .pc) s (s.setPc a) := by
  intro p hp
  cases p <;> simp_all [SamePart]

theorem setI_keeps (a : Word) : KeepsAllBut (fun p => p = .i) s (s.setI a) := by
  intro p hp
  cases p <;> simp_all [SamePart]

theorem setDT_keeps (b : Byte) : KeepsAllBut (fun p => p = .dt) s (s.setDT b) := by
  intro p hp
  cases p <;> simp_all [SamePart]

theorem setST_keeps (b : Byte) : KeepsAllBut (fun p => p = .st) s (s.setST b) := by
  intro p hp
  cases p <;> simp_all [SamePart]

theorem writeV_keeps (x : Reg) (b : Byte) : KeepsAllBut (fun p => p = .v x) s (s.writeV x b) := by
  intro p hp
  cases p <;> simp_all [SamePart, writeV_readV]

/-- Two register writes, in either order of the names. -/
theorem writeV_writeV_keeps (x y : Reg) (b c : Byte) :
    KeepsAllBut (fun p => p = .v x ∨ p = .v y) s ((s.writeV x b).writeV y c) := by
  intro p hp
  cases p <;> simp_all [SamePart, writeV_readV]

/-- Taking a fault at the recorded `pc` (60_exceptions.md R118). -/
theorem takeFault_keeps (kind : FaultKind) (pc0 word addr : Word) :
    KeepsAllBut (fun p => p = .pc ∨ p = .run ∨ p = .fault) s (s.takeFault kind pc0 word addr) := by
  intro p hp
  cases p <;> simp_all [SamePart]

/-- A run of byte writes changes bytes of its own range alone. -/
theorem writeBytes_keeps (a : Nat) (bs : List Byte) :
    KeepsAllBut (fun p => ∃ n, a ≤ n ∧ n < a + bs.length ∧ p = .byte n) s (s.writeBytes a bs) := by
  intro p hp
  cases p with
  | byte n =>
    show (s.writeBytes a bs).readByte n = s.readByte n
    rw [readByte_writeBytes]
    split
    · next h =>
      have : ¬ n < a + bs.length := fun c => hp ⟨n, h, c, rfl⟩
      rw [List.getElem?_eq_none (by omega)]
      rfl
    · rfl
  | _ =>
    rw [writeBytes_eq]
    rfl

end Sys2Proof.Machine.State
end

