-- ==== Sys2Proof/Laws/Host.lean ====
section
/-! SUPPORT. What the parts of the host's operations do: a tick, one key's level, the cleared program region. -/

namespace Sys2Proof.Machine

/-- One tick down, floored at 0 (60_exceptions.md R124). -/
theorem tickDown_toNat : ∀ b : Byte, (tickDown b).toNat = b.toNat - 1 := by decide

/-- Setting a key's level writes that key alone (40_cycle.md R72). -/
theorem setKeyBit_getLsbD (keys : Keys) {k : Nat} (hk : k ≤ 15) (j : Nat) (pressed : Bool) :
    (setKeyBit keys k pressed).getLsbD j = if j = k then pressed else keys.getLsbD j := by
  unfold setKeyBit
  by_cases hj : j < 16
  · cases pressed <;> by_cases e : j = k <;> simp_all
  · have : ¬ j = k := by omega
    simp [this, BitVec.getLsbD_of_ge _ _ (Nat.not_lt.1 hj)]

/-- A filter on the addresses. -/
theorem Memory.find_filter (m : Memory) (keep : Nat → Bool) (a : Nat) :
    Memory.find a (m.filter (fun c => keep c.1)) = if keep a then Memory.find a m else none := by
  induction m with
  | nil => simp [Memory.find]
  | cons c m ih =>
    by_cases h : keep c.1
    · rw [List.filter_cons_of_pos (by simpa using h), Memory.find, ih, Memory.find]
      by_cases e : c.1 = a
      · simp [← e, h]
      · simp [e]
    · rw [List.filter_cons_of_neg (by simpa using h), ih, Memory.find]
      by_cases e : c.1 = a
      · simp [← e, h]
      · simp [e]

/-- The cleared program region reads as 0 and the rest as before (20_memory.md R50). -/
theorem Memory.read_clearProgram (cfg : Config) (m : Memory) (a : Nat) :
    Memory.read cfg (Memory.clearProgram m) a = if a < 512 then Memory.read cfg m a else 0 := by
  unfold Memory.read Memory.clearProgram
  rw [Memory.find_filter m (fun n => decide (n < 512))]
  by_cases h : a < 512
  · simp [h]
  · have h80 : ¬ a < 80 := by omega
    simp [h, Memory.initial, h80]

end Sys2Proof.Machine
end

