-- ==== Sys2Proof/Laws/PerInstr.lean ====
section
/-! SUPPORT. The family RowOf: the word of every instruction matches the instruction's row of the opcode map
(30_encoding.md R58), one lemma per constructor. -/

namespace Sys2Proof.Laws.RowOf

/-- The word of the instruction has the fixed bits of its row. -/
def Statement (i : Instr) : Prop := matchesRow (encode i) (opcodeRow i) = true

/-! ### The formats under the masks -/

theorem nnn_row (h : BitVec 4) (nnn : Nnn) : matchesRow (formatNNN h nnn) (0xF000, h ++ 0#12) = true := by
  have e : (0xF000 : Word) = (0xF#4 ++ 0#12 : BitVec 16) := rfl
  show ((h ++ nnn : BitVec 16) &&& (0xF000 : Word) == (h ++ 0#12 : BitVec 16)) = true
  rw [e, BitVec.and_append, BitVec.and_zero, show (0xF#4) = BitVec.allOnes 4 from rfl, BitVec.and_allOnes]
  exact beq_self_eq_true _

theorem xnn_row (h : BitVec 4) (x : Reg) (nn : Byte) :
    matchesRow (formatXNN h x nn) (0xF000, (h ++ 0#4) ++ 0#8) = true := by
  have e : (0xF000 : Word) = ((0xF#4 ++ 0#4) ++ 0#8 : BitVec 16) := rfl
  show (((h ++ BitVec.ofNat 4 x) ++ nn : BitVec 16) &&& (0xF000 : Word) == ((h ++ 0#4) ++ 0#8 : BitVec 16)) = true
  rw [e, BitVec.and_append, BitVec.and_append, BitVec.and_zero, BitVec.and_zero,
    show (0xF#4) = BitVec.allOnes 4 from rfl, BitVec.and_allOnes]
  exact beq_self_eq_true _

theorem xff_row (h : BitVec 4) (x : Reg) (nn : Byte) :
    matchesRow (formatXNN h x nn) (0xF0FF, (h ++ 0#4) ++ nn) = true := by
  have e : (0xF0FF : Word) = ((0xF#4 ++ 0#4) ++ 0xFF#8 : BitVec 16) := rfl
  show (((h ++ BitVec.ofNat 4 x) ++ nn : BitVec 16) &&& (0xF0FF : Word) == ((h ++ 0#4) ++ nn : BitVec 16)) = true
  rw [e, BitVec.and_append, BitVec.and_append, BitVec.and_zero, show (0xFF#8) = BitVec.allOnes 8 from rfl,
    BitVec.and_allOnes, show (0xF#4) = BitVec.allOnes 4 from rfl, BitVec.and_allOnes]
  exact beq_self_eq_true _

theorem xyf_row (h : BitVec 4) (x y : Reg) (n : BitVec 4) :
    matchesRow (formatXYN h x y n) (0xF00F, (h ++ 0#4) ++ (0#4 ++ n)) = true := by
  have e : (0xF00F : Word) = ((0xF#4 ++ 0#4) ++ (0#4 ++ 0xF#4) : BitVec 16) := rfl
  show (((h ++ BitVec.ofNat 4 x) ++ (BitVec.ofNat 4 y ++ n) : BitVec 16) &&& (0xF00F : Word)
    == ((h ++ 0#4) ++ (0#4 ++ n) : BitVec 16)) = true
  rw [e, BitVec.and_append, BitVec.and_append, BitVec.and_append, BitVec.and_zero, BitVec.and_zero,
    show (0xF#4) = BitVec.allOnes 4 from rfl, BitVec.and_allOnes, BitVec.and_allOnes]
  exact beq_self_eq_true _

theorem xyn_row (h : BitVec 4) (x y : Reg) (n : BitVec 4) :
    matchesRow (formatXYN h x y n) (0xF000, (h ++ 0#4) ++ 0#8) = true := by
  have e : (0xF000 : Word) = ((0xF#4 ++ 0#4) ++ 0#8 : BitVec 16) := rfl
  show (((h ++ BitVec.ofNat 4 x) ++ (BitVec.ofNat 4 y ++ n) : BitVec 16) &&& (0xF000 : Word)
    == ((h ++ 0#4) ++ 0#8 : BitVec 16)) = true
  rw [e, BitVec.and_append, BitVec.and_append, BitVec.and_zero, BitVec.and_zero,
    show (0xF#4) = BitVec.allOnes 4 from rfl, BitVec.and_allOnes]
  exact beq_self_eq_true _

/-! ### One lemma per constructor -/

theorem nop : Statement .nop := rfl
theorem cls : Statement .cls := rfl
theorem ret : Statement .ret := rfl
theorem jp (nnn : Nnn) : Statement (.jp nnn) := nnn_row 0x1 nnn
theorem call (nnn : Nnn) : Statement (.call nnn) := nnn_row 0x2 nnn
theorem seImm (x : Reg) (nn : Byte) : Statement (.seImm x nn) := xnn_row 0x3 x nn
theorem sneImm (x : Reg) (nn : Byte) : Statement (.sneImm x nn) := xnn_row 0x4 x nn
theorem seReg (x y : Reg) : Statement (.seReg x y) := xyf_row 0x5 x y 0x0
theorem ldImm (x : Reg) (nn : Byte) : Statement (.ldImm x nn) := xnn_row 0x6 x nn
theorem addImm (x : Reg) (nn : Byte) : Statement (.addImm x nn) := xnn_row 0x7 x nn
theorem ldReg (x y : Reg) : Statement (.ldReg x y) := xyf_row 0x8 x y 0x0
theorem orReg (x y : Reg) : Statement (.orReg x y) := xyf_row 0x8 x y 0x1
theorem andReg (x y : Reg) : Statement (.andReg x y) := xyf_row 0x8 x y 0x2
theorem xorReg (x y : Reg) : Statement (.xorReg x y) := xyf_row 0x8 x y 0x3
theorem addReg (x y : Reg) : Statement (.addReg x y) := xyf_row 0x8 x y 0x4
theorem sub (x y : Reg) : Statement (.sub x y) := xyf_row 0x8 x y 0x5
theorem shr (x y : Reg) : Statement (.shr x y) := xyf_row 0x8 x y 0x6
theorem subn (x y : Reg) : Statement (.subn x y) := xyf_row 0x8 x y 0x7
theorem shl (x y : Reg) : Statement (.shl x y) := xyf_row 0x8 x y 0xE
theorem sneReg (x y : Reg) : Statement (.sneReg x y) := xyf_row 0x9 x y 0x0
theorem ldI (nnn : Nnn) : Statement (.ldI nnn) := nnn_row 0xA nnn
theorem jpV0 (nnn : Nnn) : Statement (.jpV0 nnn) := nnn_row 0xB nnn
theorem rnd (x : Reg) (nn : Byte) : Statement (.rnd x nn) := xnn_row 0xC x nn
theorem drw (x y : Reg) (n : Nat) : Statement (.drw x y n) := xyn_row 0xD x y (BitVec.ofNat 4 n)
theorem skp (x : Reg) : Statement (.skp x) := xff_row 0xE x 0x9E
theorem sknp (x : Reg) : Statement (.sknp x) := xff_row 0xE x 0xA1
theorem ldVxDT (x : Reg) : Statement (.ldVxDT x) := xff_row 0xF x 0x07
theorem ldVxK (x : Reg) : Statement (.ldVxK x) := xff_row 0xF x 0x0A
theorem ldDTVx (x : Reg) : Statement (.ldDTVx x) := xff_row 0xF x 0x15
theorem ldSTVx (x : Reg) : Statement (.ldSTVx x) := xff_row 0xF x 0x18
theorem addI (x : Reg) : Statement (.addI x) := xff_row 0xF x 0x1E
theorem ldF (x : Reg) : Statement (.ldF x) := xff_row 0xF x 0x29
theorem ldB (x : Reg) : Statement (.ldB x) := xff_row 0xF x 0x33
theorem stRegs (x : Reg) : Statement (.stRegs x) := xff_row 0xF x 0x55
theorem ldRegs (x : Reg) : Statement (.ldRegs x) := xff_row 0xF x 0x65

end Sys2Proof.Laws.RowOf
end

