-- ==== Sys2Proof/Laws/Step.lean ====
section
/-! SUPPORT. What one CYCLE can do, said once (40_cycle.md R70, 60_exceptions.md R121). -/

namespace Sys2Proof.Machine

theorem step_faulted {s : State} (h : s.run = .faulted) : step s = .next s := by
  unfold step
  rw [h]

theorem step_fetch_error {s : State} {addr : Word} (h : s.run = .running) (hf : s.fetchWord = .error addr) :
    step s = .next (s.takeFault .addressOutOfRange s.pc 0 addr) := by
  simp only [step, h, hf]

theorem step_decode_error {s : State} {w : Word} {e : DecodeError} (h : s.run = .running) (hf : s.fetchWord = .ok w)
    (hd : decodeWord w = .error e) : step s = .next (s.takeFault .unknownOpcode s.pc w 0) := by
  simp only [step, h, hf, hd]

theorem step_decoded {s : State} {w : Word} {i : Instr} (h : s.run = .running) (hf : s.fetchWord = .ok w)
    (hd : decodeWord w = .ok i) : step s = exec i s.advance := by
  simp only [step, h, hf, hd]

/-- The four ways of a cycle: Faulted, a failed fetch, an illegal word, an instruction. -/
theorem step_ways (s : State) :
    (s.run = .faulted ∧ step s = .next s) ∨
    (s.run = .running ∧ ∃ addr, s.fetchWord = .error addr ∧
      step s = .next (s.takeFault .addressOutOfRange s.pc 0 addr)) ∨
    (s.run = .running ∧ ∃ w e, s.fetchWord = .ok w ∧ decodeWord w = .error e ∧
      step s = .next (s.takeFault .unknownOpcode s.pc w 0)) ∨
    (s.run = .running ∧ ∃ w i, s.fetchWord = .ok w ∧ decodeWord w = .ok i ∧ step s = exec i s.advance) := by
  cases hr : s.run with
  | faulted => exact .inl ⟨rfl, step_faulted hr⟩
  | running =>
    refine .inr ?_
    cases hf : s.fetchWord with
    | error addr => exact .inl ⟨rfl, addr, rfl, step_fetch_error hr hf⟩
    | ok w =>
      refine .inr ?_
      cases hd : decodeWord w with
      | error e => exact .inl ⟨rfl, w, e, rfl, hd, step_decode_error hr hf hd⟩
      | ok i => exact .inr ⟨rfl, w, i, rfl, hd, step_decoded hr hf hd⟩

end Sys2Proof.Machine
end

