-- ==== Sys2Proof/Tests/Slice0.lean ====
section
/-! SUPPORT. The model's own tests: ill-formed terms, words written out bit by bit from the encodings of
30_encoding.md R58, one step of each instruction with the end state of 95_test_vectors.md (the vector's id stands in the
docstring), and for each statement with hypotheses a state and operands that meet them. -/

namespace Sys2Proof.Tests

open Sys2Proof Sys2Proof.Machine

/-! The evaluations below run one after another, so that few threads (and little memory) are in use at once. -/

set_option Elab.async false

/-! ## WellFormed -/

/-- The one check: a row count above 15 (30_encoding.md R57). -/
theorem test_wellformed_refuses_sixteen_rows : ¬ WellFormed (.drw 0 0 16) := by decide

theorem test_wellformed_accepts_fifteen_rows : WellFormed (.drw 0 0 15) := by decide

/-! ## Words written out bit by bit, `w[15:12] w[11:8] w[7:4] w[3:0]` -/

theorem test_decode_fixed_words :
    decodeTableWord 16 0b0000000000000000 = some .nop ∧ decodeTableWord 16 0b0000000011100000 = some .cls ∧
    decodeTableWord 16 0b0000000011101110 = some .ret := by decide

theorem test_decode_addresses :
    decodeTableWord 16 0b0001001000110100 = some (.jp 0x234) ∧
    decodeTableWord 16 0b0010001000010000 = some (.call 0x210) ∧
    decodeTableWord 16 0b1010001100000000 = some (.ldI 0x300) ∧
    decodeTableWord 16 0b1011111100000001 = some (.jpV0 0xF01) := by decide

theorem test_decode_immediates :
    decodeTableWord 16 0b0011001101000010 = some (.seImm 3 0x42) ∧
    decodeTableWord 16 0b0100001101000010 = some (.sneImm 3 0x42) ∧
    decodeTableWord 16 0b0110101001111011 = some (.ldImm 10 0x7B) ∧
    decodeTableWord 16 0b0111000100001010 = some (.addImm 1 0x0A) ∧
    decodeTableWord 16 0b1100000111110000 = some (.rnd 1 0xF0) := by decide

theorem test_decode_register_pairs :
    decodeTableWord 16 0b0101000100100000 = some (.seReg 1 2) ∧
    decodeTableWord 16 0b1001000100100000 = some (.sneReg 1 2) ∧
    decodeTableWord 16 0b1000000100100000 = some (.ldReg 1 2) ∧
    decodeTableWord 16 0b1000000100100001 = some (.orReg 1 2) ∧
    decodeTableWord 16 0b1000000100100010 = some (.andReg 1 2) ∧
    decodeTableWord 16 0b1000000100100011 = some (.xorReg 1 2) := by decide

theorem test_decode_arithmetic :
    decodeTableWord 16 0b1000000100100100 = some (.addReg 1 2) ∧
    decodeTableWord 16 0b1000000100100101 = some (.sub 1 2) ∧
    decodeTableWord 16 0b1000000100100110 = some (.shr 1 2) ∧
    decodeTableWord 16 0b1000000100100111 = some (.subn 1 2) ∧
    decodeTableWord 16 0b1000000100101110 = some (.shl 1 2) := by decide

theorem test_decode_draw_and_keys :
    decodeTableWord 16 0b1101000100101111 = some (.drw 1 2 15) ∧
    decodeTableWord 16 0b1110010110011110 = some (.skp 5) ∧
    decodeTableWord 16 0b1110010110100001 = some (.sknp 5) := by decide

theorem test_decode_family_f :
    decodeTableWord 16 0b1111001100000111 = some (.ldVxDT 3) ∧ decodeTableWord 16 0b1111001100001010 = some (.ldVxK 3) ∧
    decodeTableWord 16 0b1111000100010101 = some (.ldDTVx 1) ∧ decodeTableWord 16 0b1111000100011000 = some (.ldSTVx 1) ∧
    decodeTableWord 16 0b1111001000011110 = some (.addI 2) ∧ decodeTableWord 16 0b1111001000101001 = some (.ldF 2) ∧
    decodeTableWord 16 0b1111101000110011 = some (.ldB 10) ∧ decodeTableWord 16 0b1111001001010101 = some (.stRegs 2) ∧
    decodeTableWord 16 0b1111001001100101 = some (.ldRegs 2) := by decide

/-- Illegal words of each family (30_encoding.md R59; D-1 to D-3). -/
theorem test_decode_refuses :
    decodeTableWord 16 0x0123 = none ∧ decodeTableWord 16 0x5121 = none ∧ decodeTableWord 16 0x8008 = none ∧
    decodeTableWord 16 0x800F = none ∧ decodeTableWord 16 0x9121 = none ∧ decodeTableWord 16 0xE0A2 = none ∧
    decodeTableWord 16 0xF000 = none ∧ decodeTableWord 16 0xF0FF = none := by decide

/-- A row shorter than the instruction has zeros above it. -/
theorem test_decode_short_row : decodeTableWord 8 0x12E0 = some .cls := by decide

/-! ## One step -/

/-- The block after one CYCLE that runs the word `w`, from `s`. -/
def run (s : State) (w : Nat) : State :=
  match step (s.withFetchWord 16 w) with
  | .next t => t
  | .fault _ => s
  | .refused _ => s

/-- The default block after reset. -/
def base : State := State.reset

/-- A block built with `SHIFT_USES_VY`. -/
def baseVY : State := State.resetWith { defaultConfig with shiftUsesVy := true }

/-- The reset state with two registers set. -/
def with2 (x : Reg) (a : Byte) (y : Reg) (b : Byte) : State := (base.writeV x a).writeV y b

/-- The reset state with some keys pressed, key `k` as bit `k`. -/
def withKeys (keys : Keys) : State := { base with keys := keys }

/-- The lit pixels below a bound. -/
def lit (s : State) (bound : Nat) : List Nat := (List.range bound).filter s.pixel

/-- C-1. -/
theorem test_nop : run base 0x0000 = (base.setPc 0x202) := by decide +kernel

/-- C-2, and C-3: an odd target. -/
theorem test_jp : (run base 0x1234).pc = 0x234 ∧ (run base 0x1201).pc = 0x201 := by decide +kernel

/-- C-4. -/
theorem test_call : (run base 0x2400).pc = 0x400 ∧ (run base 0x2400).sp = 1 ∧ (run base 0x2400).stackAt 0 = 0x202 := by
  decide +kernel

/-- C-7: the seventeenth nested call. -/
theorem test_call_overflows :
    run { base with sp := 16 } 0x2300 =
      (State.withFetchWord { base with sp := 16 } 16 0x2300).takeFault .stackOverflow 0x200 0x2300 0 := by decide +kernel

/-- A block about to return to 0x202: C-5. -/
def inCall : State := { base with sp := 1, stack := base.stack.set 0 0x202, pc := 0x400 }

/-- C-5: the popped entry keeps its value. -/
theorem test_ret : (run inCall 0x00EE).pc = 0x202 ∧ (run inCall 0x00EE).sp = 0 ∧ (run inCall 0x00EE).stackAt 0 = 0x202 := by
  decide +kernel

/-- C-6. -/
theorem test_ret_underflows :
    (run base 0x00EE).run = .faulted ∧ (run base 0x00EE).pc = 0x200 ∧
    (run base 0x00EE).fault = { kind := some .stackUnderflow, pc := 0x200, word := 0x00EE, addr := 0 } := by decide +kernel

/-- C-8, C-9. -/
theorem test_se_imm : (run (base.writeV 0 0x12) 0x3012).pc = 0x204 ∧ (run (base.writeV 0 0x13) 0x3012).pc = 0x202 := by
  decide +kernel

/-- C-10. -/
theorem test_sne_imm : (run (base.writeV 0 0x12) 0x4012).pc = 0x202 ∧ (run (base.writeV 0 0x13) 0x4012).pc = 0x204 := by
  decide +kernel

/-- C-11. -/
theorem test_se_reg : (run (with2 1 9 2 9) 0x5120).pc = 0x204 ∧ (run (with2 1 9 2 8) 0x5120).pc = 0x202 := by
  decide +kernel

/-- C-12. -/
theorem test_sne_reg : (run (with2 1 9 2 8) 0x9120).pc = 0x204 ∧ (run (with2 1 9 2 8) 0x9110).pc = 0x202 := by
  decide +kernel

/-- C-14: above 4094 `pc` is held without a fault. -/
theorem test_jp_v0 : (run (base.writeV 0 0xFF) 0xBFFF).pc = 0x10FE ∧ (run (base.writeV 0 4) 0xB300).pc = 0x304 := by
  decide +kernel

/-- C-14, the next CYCLE. -/
theorem test_fetch_faults :
    step (base.setPc 0x10FE) = .next ((base.setPc 0x10FE).takeFault .addressOutOfRange 0x10FE 0 0x10FE) := rfl

/-- C-17: only one byte of the word lies in memory. -/
theorem test_fetch_faults_at_4095 :
    step (base.setPc 0xFFF) = .next ((base.setPc 0xFFF).takeFault .addressOutOfRange 0xFFF 0 4096) := rfl

/-- C-15: a skip at the end of memory raises nothing. -/
theorem test_skip_past_the_end :
    (run (base.setPc 0xFFE) 0x3000).pc = 0x1002 ∧ (run (base.setPc 0xFFE) 0x3000).run = .running := by decide +kernel

/-- D-1. -/
theorem test_illegal_word :
    (run base 0x5121).fault = { kind := some .unknownOpcode, pc := 0x200, word := 0x5121, addr := 0 } ∧
    (run base 0x5121).pc = 0x200 := by decide +kernel

/-- A-1, A-4. -/
theorem test_loads : (run base 0x6A7B).readV 10 = 0x7B ∧ (run (base.writeV 2 0x33) 0x8120).readV 1 = 0x33 := by
  decide +kernel

/-- A-2: no carry flag. -/
theorem test_add_imm : (run (with2 0 0xFF 15 0x55) 0x7001).readV 0 = 0 ∧
    (run (with2 0 0xFF 15 0x55) 0x7001).readV 15 = 0x55 := by decide +kernel

/-- A-5, A-6, A-7. -/
theorem test_logic : (run (with2 1 0xF0 2 0x0F) 0x8121).readV 1 = 0xFF ∧
    (run (with2 1 0xF0 2 0x3C) 0x8122).readV 1 = 0x30 ∧ (run (with2 1 0xFF 2 0x0F) 0x8123).readV 1 = 0xF0 := by
  decide +kernel

/-- E3, A-9. -/
theorem test_add : (run (with2 1 0xC8 2 0x64) 0x8124).readV 1 = 0x2C ∧ (run (with2 1 0xC8 2 0x64) 0x8124).readV 15 = 1 ∧
    (run (with2 1 0x80 2 0x7F) 0x8124).readV 15 = 0 := by decide +kernel

/-- A-11: VX is VF, the flag stays. -/
theorem test_add_to_vf : (run (with2 15 0xF0 1 0x20) 0x8F14).readV 15 = 1 := by decide +kernel

/-- A-12, A-14. -/
theorem test_sub : (run (with2 1 5 2 7) 0x8125).readV 1 = 0xFE ∧ (run (with2 1 5 2 7) 0x8125).readV 15 = 0 ∧
    (run (with2 1 5 2 5) 0x8125).readV 15 = 1 := by decide +kernel

/-- A-19, A-20. -/
theorem test_subn : (run (with2 1 5 2 7) 0x8127).readV 1 = 2 ∧ (run (with2 1 5 2 7) 0x8127).readV 15 = 1 ∧
    (run (with2 1 7 2 5) 0x8127).readV 15 = 0 := by decide +kernel

/-- D-4: `y` is ignored by default. A-18: VX is VF, the shift reads the flag. -/
theorem test_shr : (run (with2 1 0xFF 2 0x04) 0x8126).readV 1 = 0x7F ∧ (run (with2 1 0xFF 2 0x04) 0x8126).readV 15 = 1 ∧
    (run (base.writeV 15 3) 0x8F06).readV 15 = 0 := by decide +kernel

/-- A-28. -/
theorem test_shr_variant : (run ((baseVY.writeV 1 0xFF).writeV 2 4) 0x8126).readV 1 = 2 ∧
    (run ((baseVY.writeV 1 0xFF).writeV 2 4) 0x8126).readV 15 = 0 := by decide +kernel

/-- A-21, A-23. -/
theorem test_shl : (run (base.writeV 1 0x81) 0x810E).readV 1 = 2 ∧ (run (base.writeV 1 0x81) 0x810E).readV 15 = 1 ∧
    (run (base.writeV 15 0x80) 0x8F0E).readV 15 = 2 := by decide +kernel

/-- A-29. -/
theorem test_shl_variant : (run (baseVY.writeV 2 0x81) 0x812E).readV 1 = 2 ∧
    (run (baseVY.writeV 2 0x81) 0x812E).readV 15 = 1 := by decide +kernel

/-- A-25: the draw is 0xAB. -/
theorem test_mask_draw : (base.maskDraw 0xAB 0 0x0F).readV 0 = 0x0B := by decide +kernel

/-- A-26: whatever the draw, a mask of 0 gives 0. -/
theorem test_rnd : (run base 0xC000).readV 0 = 0 ∧ (run base 0xC000).draws = 1 :=
  ⟨BitVec.and_zero, rfl⟩

/-- M-1, M-3, M-4. -/
theorem test_index : (run base 0xA300).i = 0x300 ∧ (run ((base.writeV 0 1).setI 0xFFFF) 0xF01E).i = 0 ∧
    (run ((base.writeV 0 1).setI 0x0FFF) 0xF01E).i = 0x1000 := by decide +kernel

/-- M-5, M-6. -/
theorem test_font_index : (run (base.writeV 0 0xFF) 0xF029).i = 1275 ∧ (run (base.writeV 0 0x0F) 0xF029).i = 75 := by
  decide +kernel

/-- M-7. -/
theorem test_bcd : (run ((base.writeV 0 255).setI 4093) 0xF033).readBytes 4093 3 = [2, 5, 5] := by decide +kernel

/-- M-9: nothing is written. -/
theorem test_bcd_faults :
    run ((base.writeV 0 255).setI 4094) 0xF033 =
      (((base.writeV 0 255).setI 4094).withFetchWord 16 0xF033).takeFault .addressOutOfRange 0x200 0xF033 4096 := by
  decide +kernel

/-- M-11. -/
theorem test_store : (run ((with2 0 1 2 3).setI 0x300) 0xF255).readBytes 0x300 4 = [1, 0, 3, 0] ∧
    (run ((with2 0 1 2 3).setI 0x300) 0xF255).i = 0x300 := by decide +kernel

/-- M-13. -/
theorem test_store_faults : (run (base.setI 0xFF1) 0xFF55).fault =
    { kind := some .addressOutOfRange, pc := 0x200, word := 0xFF55, addr := 4096 } := by decide +kernel

/-- P2: the digits loaded back. -/
theorem test_load : (run ((base.writeBytes 0x300 [1, 2, 3]).setI 0x300) 0xF265).readV 2 = 3 ∧
    (run ((base.writeBytes 0x300 [1, 2, 3]).setI 0x300) 0xF165).readV 2 = 0 := by decide +kernel

/-- M-15: the address does not wrap. -/
theorem test_load_faults : (run (base.setI 0xFFFF) 0xF065).fault =
    { kind := some .addressOutOfRange, pc := 0x200, word := 0xF065, addr := 0xFFFF } := by decide +kernel

/-- G-1. -/
theorem test_cls : (run (base.setDisp 0xF) 0x00E0).disp = 0 := by decide +kernel

/-- G-2: the row wraps in x. -/
theorem test_draw_wraps : lit (run (base.writeV 0 62) 0xD011) 128 = [0, 1, 62, 63] ∧
    (run (base.writeV 0 62) 0xD011).readV 15 = 0 := by decide +kernel

/-- G-8: a collision. -/
theorem test_draw_collides : lit (run (base.setDisp 1) 0xD011) 128 = [1, 2, 3] ∧
    (run (base.setDisp 1) 0xD011).readV 15 = 1 := by decide +kernel

/-- K-1, K-2. -/
theorem test_skp : (run ((withKeys 0x80).writeV 5 7) 0xE59E).pc = 0x204 ∧ (run (base.writeV 5 7) 0xE59E).pc = 0x202 := by
  decide +kernel

/-- K-4. -/
theorem test_skp_faults : (run (base.writeV 0 16) 0xE09E).fault =
    { kind := some .addressOutOfRange, pc := 0x200, word := 0xE09E, addr := 16 } := by decide +kernel

/-- K-3. -/
theorem test_sknp : (run ((withKeys 0x80).writeV 5 7) 0xE5A1).pc = 0x202 ∧ (run (base.writeV 5 7) 0xE5A1).pc = 0x204 := by
  decide +kernel

/-- K-5. -/
theorem test_sknp_faults : (run (base.writeV 0 0xFF) 0xE0A1).fault =
    { kind := some .addressOutOfRange, pc := 0x200, word := 0xE0A1, addr := 0xFF } := by decide +kernel

/-- K-6, K-10, K-11. -/
theorem test_timers : (run (base.setDT 0x3C) 0xF307).readV 3 = 0x3C ∧ (run (base.writeV 1 60) 0xF115).dt = 60 ∧
    (run (base.writeV 1 5) 0xF118).st = 5 := by decide +kernel

/-- K-7, K-8. -/
theorem test_key_wait : (run base 0xF30A).pc = 0x200 ∧ (run (withKeys 0x210) 0xF30A).pc = 0x202 ∧
    (run (withKeys 0x210) 0xF30A).readV 3 = 4 := by decide +kernel

/-! ## Host operations -/

/-- A block that has faulted. -/
def broken : State := base.takeFault .stackUnderflow 0x200 0x00EE 0

/-- K-12, K-14. -/
theorem test_tick : (base.setDT 1).tick.dt = 0 ∧ (base.setDT 1).tick.st = 0 ∧ (broken.setDT 5).tick.dt = 5 := by
  decide +kernel

/-- K-15, K-16. -/
theorem test_set_key : (base.setKey 15 true).1.keys = 0x8000 ∧ base.setKey 16 true = (base, some .addressOutOfRange) := by
  decide +kernel

/-- H-5. -/
theorem test_load_rom :
    ((base.writeBytes 0x200 [0xAA, 0xBB, 0xCC, 0xDD]).loadRom [0x12, 0x34]).readBytes 0x200 4 = [0x12, 0x34, 0, 0] := by
  decide +kernel

/-- H-7. -/
theorem test_load_rom_too_large :
    (base.loadRom (List.replicate 3585 1)).fault = { kind := some .programTooLarge, pc := 0x200, word := 0, addr := 0 } := by
  decide +kernel

/-- The codes of 60_exceptions.md R115, in the source's order. -/
theorem test_fault_codes : [none, some .addressOutOfRange, some .programTooLarge, some .stackOverflow, some .stackUnderflow,
    some .unknownOpcode].map kindCode = [0, 1, 2, 3, 4, 5] := by decide

/-- H-4. -/
theorem test_reset : ((broken.setDT 5).writeByte 0x200 7).resetBlock = base := by decide +kernel

/-! ## Witnesses: states and operands that meet the hypotheses of the statements -/

/-- DecodeInvertsEncode, EncodeInvertsDecode, EveryShapeIsReadFieldByField. -/
theorem witness_well_formed : WellFormed (.drw 0 1 15) ∧ decodeWord 0xD01F = .ok (.drw 0 1 15) ∧ 15 ≤ 15 :=
  ⟨rfl, rfl, Nat.le_refl _⟩

/-- IllegalWordsAreThoseOfTheTable: each family of the table, and a word of none. -/
theorem witness_illegal_words :
    illegalWord 0x0123 ∧ illegalWord 0x0FFF ∧ illegalWord 0x5121 ∧ illegalWord 0x8008 ∧ illegalWord 0x800F ∧
    illegalWord 0x9001 ∧ illegalWord 0xE0A2 ∧ illegalWord 0xF066 ∧ ¬ illegalWord 0x00EE ∧ ¬ illegalWord 0x800E := by
  refine ⟨?_, ?_, ?_, ?_, ?_, ?_, ?_, ?_, ?_, ?_⟩ <;> unfold illegalWord <;> decide

/-- RowsAreDisjointAndDecideDecoding. -/
theorem witness_row : decodeWord 0x8126 = .ok (.shr 1 2) ∧ matchesRow 0x8126 (0xF00F, 0x8006) = true ∧
    (0xF00F, 0x8006) ∈ opcodeMap := ⟨rfl, rfl, by decide⟩

/-- FetchReadsTwoBytesHighFirst, FetchPastTheEndFaults, at the two addresses where the clauses meet. -/
theorem witness_fetch_bounds :
    (base.setPc 4094).pc.toNat + 1 ≤ 4095 ∧ (base.setPc 4095).run = .running ∧ 4095 < (base.setPc 4095).pc.toNat + 1 := by
  decide

/-- The default block about to run a word. -/
def about (w : Nat) : State := base.withFetchWord 16 w

/-- StepRunsTheDecodedInstruction. -/
theorem witness_step :
    (about 0x1234).run = .running ∧ (about 0x1234).pc.toNat + 1 ≤ 4095 ∧
    (0x1234 : Word).toNat = ((about 0x1234).readByte (about 0x1234).pc.toNat).toNat * 256 +
      ((about 0x1234).readByte ((about 0x1234).pc.toNat + 1)).toNat ∧ decodeWord 0x1234 = .ok (.jp 0x234) :=
  ⟨rfl, by decide, by decide +kernel, rfl⟩

/-- IllegalWordFaults. -/
theorem witness_illegal_fetch :
    (about 0x5121).run = .running ∧ (about 0x5121).pc.toNat + 1 ≤ 4095 ∧ illegalWord (about 0x5121).wordAtPc := by
  refine ⟨rfl, by decide, ?_⟩
  rw [show (about 0x5121).wordAtPc = 0x5121 from by decide +kernel]
  unfold illegalWord
  decide

/-- CycleFaultsExactlyAsListed: the fetch, the decode, an instruction, and no fault. -/
theorem witness_cycle_fault :
    cycleFault (base.setPc 4095) = some { kind := some .addressOutOfRange, pc := 4095, word := 0, addr := 4096 } ∧
    (cycleFault (about 0x5121)).isSome ∧ (cycleFault (about 0x00EE)).isSome ∧ cycleFault (about 0x0000) = none := by
  decide +kernel

/-- PcAfterACycle, and the statements on what a cycle writes. -/
theorem witness_fetches :
    Fetches (about 0x8124) (.addReg 1 2) ∧ cycleFault (about 0x8124) = none ∧
    step (about 0x8124) = .next (run base 0x8124) := by
  exact ⟨⟨rfl, by decide, rfl⟩, by decide +kernel, rfl⟩

/-- EndOfRunStandsStill: both grounds. -/
theorem witness_end_of_run : endOfRun broken = true ∧ endOfRun (about 0x1200) = true := by decide +kernel

/-- Everything the invariant asks holds after reset, and the block steps and takes host operations. -/
theorem base_inv : Inv base where
  memory := by decide
  pc_le := by decide
  stack_le := by decide
  running := fun _ => rfl
  faulted := fun h => (nomatch h)

/-- EveryStepKeepsTheInvariant, EveryHostOperationKeepsTheInvariant, EveryScheduleRunsAndKeepsTheInvariant. -/
theorem witness_inv : Inv base ∧ step base = .next (base.setPc 0x202) ∧
    hostStep .getDisplay base = .next (base, .display 0) := ⟨base_inv, rfl, rfl⟩

/-- ExecuteFaultsAreTaken: an instruction that faults and one that does not. -/
theorem witness_execute_fault :
    executeFault .ret base = some (.stackUnderflow, 0) ∧ executeFault (.ldB 0) (base.setI 4093) = none := by decide

/-- RetPopsOrUnderflows: one address, sixteen, none. -/
theorem witness_ret : inCall.sp.val = (0 : Fin 16).val + 1 ∧ ({ base with sp := 16 } : State).sp.val = (15 : Fin 16).val + 1 ∧
    base.sp.val = 0 := by decide

/-- CallPushesOrOverflows: no address, fifteen, sixteen. -/
theorem witness_call : base.sp.val = (0 : Fin 16).val ∧ ({ base with sp := 15 } : State).sp.val = (15 : Fin 16).val ∧
    ({ base with sp := 16 } : State).sp.val = 16 := by decide

/-- AddSetsCarry, SubtractionsSetNotBorrow, ShiftRightHalves, ShiftLeftDoubles: VX not VF, and the source VX, VY or VF. -/
theorem witness_alu :
    (1 : Reg) ≠ regVF ∧ (1 : Reg) = (if base.cfg.shiftUsesVy = true then 2 else 1) ∧
    (2 : Reg) = (if baseVY.cfg.shiftUsesVy = true then 2 else 1) ∧
    regVF = (if base.cfg.shiftUsesVy = true then 2 else regVF) := by decide

/-- BcdStoresThreeDigits, at the highest legal base and one above. -/
theorem witness_bcd : (base.setI 4093).i.toNat + 2 ≤ 4095 ∧ (base.setI 4094).i.toNat + 2 > 4095 := by decide

/-- StoreWritesTheBlock, LoadReadsTheBlock, at the highest legal base, one above, and the highest I. -/
theorem witness_block : (base.setI 0xFF0).i.toNat + (15 : Reg).val ≤ 4095 ∧ (base.setI 0xFF1).i.toNat + (15 : Reg).val > 4095 ∧
    (base.setI 0xFFFF).i.toNat + (0 : Reg).val > 4095 ∧ (2 : Reg) ≤ 15 := by decide

/-- A block about to store V0, V1, V2 at 0x300, and the state after it. -/
def storing : State := ((with2 0 0x12 1 0x34).setI 0x300).writeV 2 7

def stored : State := storing.writeBytes 0x300 [0x12, 0x34, 7]

theorem stored_eq : exec (.stRegs 2) storing = .next stored := rfl

/-- StoreThenLoadRestoresRegisters: the registers are lost in between. -/
theorem witness_store_then_load :
    storing.i.toNat + (2 : Reg).val ≤ 4095 ∧ exec (.stRegs 2) storing = .next stored ∧ (stored.writeV 0 9).i = stored.i ∧
    ∀ r : Reg, r ≤ 2 → (stored.writeV 0 9).readByte (stored.i.toNat + r.val) = stored.readByte (stored.i.toNat + r.val) :=
  ⟨by decide, stored_eq, rfl, fun _ _ => rfl⟩

/-- StoredCodeIsFetched: V0 and V1 hold the word 0x1234. -/
theorem witness_stored_code :
    storing.i.toNat + (2 : Reg).val ≤ 4095 ∧ exec (.stRegs 2) storing = .next stored ∧
    (1 : Reg).val = (0 : Reg).val + 1 ∧ (1 : Reg) ≤ 2 ∧ (0x300 : Word).toNat = storing.i.toNat + (0 : Reg).val :=
  ⟨by decide, stored_eq, rfl, by decide, by decide⟩

/-- ReadReturnsTheLastWrite, at the last address. -/
theorem witness_last_address : 4095 ≤ 4095 ∧ 4094 ≠ 4095 := by decide

/-- EqualReadsMakeEqualMemories, for a memory that lists a byte. -/
theorem witness_memory : Memory.wf defaultConfig [(0x200, 0x12)] ∧
    ∀ a < 4096, Memory.read defaultConfig [(0x200, 0x12)] a = Memory.read defaultConfig [(0x200, 0x12)] a :=
  ⟨by decide +kernel, fun _ _ => rfl⟩

/-- DrawFlipsAndReportsCollision: no row anywhere, fifteen rows that end at 4095, and one byte further. -/
theorem witness_draw_bounds : (0 ≤ 15 ∧ ((base.setI 0xFFFF).i.toNat + 0 - 1 > 4095)) ∧
    (base.setI 4081).i.toNat + 15 - 1 ≤ 4095 ∧ (15 > 0 ∧ (base.setI 4082).i.toNat + 15 - 1 > 4095) := by decide

/-- DrawFlipsAndReportsCollision: the glyph "0" covers pixel 0, which is lit in one display and dark in the other. -/
theorem witness_draw_collision :
    (Covered (base.setDisp 1) 0 0 1 0 ∧ (base.setDisp 1).pixel 0 = true) ∧
    ¬ ∃ p, Covered base 0 0 1 p ∧ base.pixel p = true := by
  refine ⟨⟨⟨0, by decide, 0, by decide, by decide +kernel, by decide +kernel⟩, by decide +kernel⟩, ?_⟩
  rintro ⟨p, _, hp⟩
  have dark : base.pixel p = false := BitVec.getLsbD_zero
  rw [dark] at hp
  cases hp

/-- DrawTwiceRestoresTheDisplay: the second draw right after the first. -/
theorem witness_draw_twice :
    1 ≤ 15 ∧ base.i.toNat + 1 - 1 ≤ 4095 ∧ (0 : Reg) ≠ regVF ∧ (1 : Reg) ≠ regVF ∧
    exec (.drw 0 1 1) base = .next (base.drawSprite 0 0 [0xF0]) ∧
    KeepsAllBut (fun p => p = .pc) (base.drawSprite 0 0 [0xF0]) (base.drawSprite 0 0 [0xF0]) := by
  refine ⟨by decide, by decide, by decide, by decide, rfl, fun p _ => ?_⟩
  cases p <;> rfl

/-- KeySkipsTestTheLevel: the highest key, and one above. -/
theorem witness_key_index : ((base.writeV 0 15).readV 0).toNat ≤ 15 ∧ ((base.writeV 0 16).readV 0).toNat > 15 := by decide

/-- KeyWaitTakesTheLowestKeyOrRetries: keys 4 and 9 pressed, key 15 alone, and none. -/
theorem witness_key_wait :
    ((withKeys 0x210).keyPressed 4 = true ∧ ∀ j < 4, (withKeys 0x210).keyPressed j = false) ∧
    ((withKeys 0x8000).keyPressed 15 = true ∧ ∀ j < 15, (withKeys 0x8000).keyPressed j = false) ∧
    ∀ k < 16, base.keyPressed k = false := by decide

/-- TickCountsDownToZero, FaultedIsStickyUntilReset. -/
theorem witness_run_states : base.run = .running ∧ broken.run = .faulted ∧ HostOp.tick ≠ HostOp.reset ∧
    hostStep .tick broken = .next (broken, .status (some .stackUnderflow)) := ⟨rfl, rfl, by decide, rfl⟩

/-- SetKeyWritesOneLevel. -/
theorem witness_set_key : 15 ≤ 15 ∧ 16 > 15 := by decide

/-- LoadRomReplacesTheProgramRegion: the largest program, one byte more, a byte of it, the address after a short one, and
a Faulted block. -/
theorem witness_load_rom :
    512 + (List.replicate 3584 (1 : Byte)).length ≤ 4096 ∧ 512 + (List.replicate 3585 (1 : Byte)).length > 4096 ∧
    ([0x12, 0x34] : List Byte)[1]? = some 0x34 ∧ 512 + ([0x12, 0x34] : List Byte).length ≤ 514 ∧ broken.run = .faulted := by
  simp only [List.length_replicate]
  decide

/-- BootFetchesTheFirstWord: the longest rest of a program. -/
theorem witness_boot : (List.replicate 3582 (0 : Byte)).length ≤ 3582 := by
  simp only [List.length_replicate]
  decide

/-- StoredWordIsRunNext. -/
theorem witness_stored_word : decodeTableWord 16 0x1234 = some (.jp 0x234) ∧ base.run = .running ∧
    base.pc.toNat + 1 ≤ 4095 := by decide

end Sys2Proof.Tests
end

section
/-! PROOFS. The statements of 20_memory.md. -/

namespace Sys2Proof.Machine

/-- Settles O7: the two outcomes of the fetch, with the word and the offending address as numbers. -/
theorem fetchReadsTwoBytesHighFirst : Obligations.FetchReadsTwoBytesHighFirst := by
  intro s
  constructor
  · intro inside
    exact ⟨_, State.fetchWord_eq_ok.2 ⟨inside, rfl⟩, wordOfBytes_toNat _ _⟩
  · intro past
    exact ⟨_, State.fetchWord_eq_error.2 ⟨past, rfl⟩, toNat_offending s.pc⟩

end Sys2Proof.Machine
end

section
/-! PROOFS. The statements of 40_cycle.md. -/

namespace Sys2Proof.Machine

namespace State

/-- The word of a fetch, given as a number (20_memory.md R40). -/
theorem fetchWord_eq_ok_of_toNat {s : State} {w : Word} (inside : s.pc.toNat + 1 ≤ 4095)
    (hw : w.toNat = (s.readByte s.pc.toNat).toNat * 256 + (s.readByte (s.pc.toNat + 1)).toNat) :
    s.fetchWord = .ok w :=
  fetchWord_eq_ok.2 ⟨inside, BitVec.eq_of_toNat_eq (hw.trans (wordOfBytes_toNat _ _).symm)⟩

/-- The advance of a cycle does not wrap where the fetch succeeds (40_cycle.md R67). -/
theorem advance_pc_toNat {s : State} (inside : s.pc.toNat + 1 ≤ 4095) : s.advance.pc.toNat = s.pc.toNat + 2 :=
  BitVec.toNat_add_of_lt (show s.pc.toNat + 2 < 65536 by omega)

end State

/-- Settles O8: the fetch answers the word, the cycle runs what it decodes to after the advance, and an address that can
be fetched from is too low for the advance to wrap. -/
theorem stepRunsTheDecodedInstruction : Obligations.StepRunsTheDecodedInstruction := by
  intro s w i running inside hw decoded
  have fetched : s.fetchWord = .ok w := State.fetchWord_eq_ok_of_toNat inside hw
  exact ⟨step_decoded running fetched decoded, State.advance_pc_toNat inside⟩

/-- Settles O55: the reply is the display, and a pixel is by definition a bit of it. -/
theorem getDisplayReturnsThePixels : Obligations.GetDisplayReturnsThePixels :=
  fun s => ⟨s.disp, rfl, fun _ => rfl⟩

end Sys2Proof.Machine
end

section
/-! PROOFS. The statements of 41_control_flow.md. -/

namespace Sys2Proof.Machine

/-- A state keeps each of its own parts, whatever the claim allows to change. -/
theorem keepsAllBut_refl (written : Part → Prop) (s : State) : KeepsAllBut written s s := by
  intro p _
  cases p <;> rfl

/-- NOP answers the state it is given, the advanced `pc` included (41_control_flow.md R77). -/
theorem exec_nop (s : State) : exec .nop s = .next s := rfl

/-- Settles O23: the next state is the state itself. -/
theorem nopChangesNothing : Obligations.NopChangesNothing :=
  fun s => ⟨s, exec_nop s, keepsAllBut_refl _ s⟩

end Sys2Proof.Machine
end

section
/-! PROOFS. The statements of 30_encoding.md. -/

namespace Sys2Proof

/-- The decoder reads the word of a well-formed instruction as that instruction. -/
theorem decodeWord_encode {i : Instr} (wf : WellFormed i) : decodeWord (encode i) = .ok i := by
  cases i with
  | nop | cls | ret => rfl
  | jp | call | ldI | jpV0 => simp [encode, decodeWord, fields_formatNNN]
  | seImm | sneImm | ldImm | addImm | rnd => simp [encode, decodeWord, fields_formatXNN]
  | seReg | sneReg => simp [encode, decodeWord, fields_formatXYN]
  | drw x y n =>
    have rows : n ≤ 15 := of_decide_eq_true wf
    have low : (BitVec.ofNat 4 n).toNat = n := by
      rw [BitVec.toNat_ofNat]
      omega
    simp [encode, decodeWord, fields_formatXYN, low]
  | ldReg | orReg | andReg | xorReg | addReg | sub | shr | subn | shl =>
    simp [encode, decodeWord, decode8, fields_formatXYN]
  | skp | sknp => simp [encode, decodeWord, decodeE, fields_formatXNN]
  | ldVxDT | ldVxK | ldDTVx | ldSTVx | addI | ldF | ldB | stRegs | ldRegs =>
    simp [encode, decodeWord, decodeF, fields_formatXNN]

theorem decode_of_decodeWord {hi lo : Byte} {i : Instr} (d : decodeWord (wordOfBytes hi lo) = .ok i)
    (rest : List Byte) : decode (hi :: lo :: rest) = .ok (i, rest) := by
  simp only [decode, d]

/-- Settles O2: the word by the format's fields, the bytes because they make the word again (30_encoding.md R55). -/
theorem decodeInvertsEncode : Obligations.DecodeInvertsEncode := by
  intro i wf
  refine ⟨decodeWord_encode wf, fun rest => ?_⟩
  refine decode_of_decodeWord ?_ rest
  rw [wordOfBytes_high_low, decodeWord_encode wf]

/-! ### Words laid out as numbers -/

theorem wordNNN_eq_format (h : BitVec 4) (nnn : Nnn) : Machine.wordNNN h.toNat nnn = formatNNN h nnn := by
  unfold Machine.wordNNN
  rw [← formatNNN_toNat, BitVec.ofNat_toNat, BitVec.setWidth_eq]

theorem wordXNN_eq_format (h : BitVec 4) (x : Reg) (nn : Byte) :
    Machine.wordXNN h.toNat x nn.toNat = formatXNN h x nn := by
  unfold Machine.wordXNN
  rw [← formatXNN_toNat, BitVec.ofNat_toNat, BitVec.setWidth_eq]

theorem wordXYN_eq_format (h : BitVec 4) (x y : Reg) (n : BitVec 4) :
    Machine.wordXYN h.toNat x y n.toNat = formatXYN h x y n := by
  unfold Machine.wordXYN
  rw [← formatXYN_toNat, BitVec.ofNat_toNat, BitVec.setWidth_eq]

theorem decodeWord_of_eq_encode {w : Word} {i : Instr} (h : w = encode i) (wf : WellFormed i) : decodeWord w = .ok i :=
  h ▸ decodeWord_encode wf

theorem decodeWord_wordXYN_drw (x y : Reg) {n : Nat} (rows : n ≤ 15) :
    decodeWord (Machine.wordXYN 13 x y n) = .ok (.drw x y n) := by
  have low : (BitVec.ofNat 4 n).toNat = n := by
    rw [BitVec.toNat_ofNat]
    omega
  have word := wordXYN_eq_format 13 x y (BitVec.ofNat 4 n)
  rw [low] at word
  exact decodeWord_of_eq_encode word (decide_eq_true rows)

/-- Settles O3: every word laid out as a number is the encoder's word of its instruction. -/
theorem everyShapeIsReadFieldByField : Obligations.EveryShapeIsReadFieldByField := by
  intro x y n nn nnn rows
  have address {i} (h) (e : formatNNN h nnn = encode i) := decodeWord_of_eq_encode ((wordNNN_eq_format h nnn).trans e)
  have byte {i} (h nn) (e : formatXNN h x nn = encode i) :=
    decodeWord_of_eq_encode ((wordXNN_eq_format h x nn).trans e)
  have pair {i} (h n) (e : formatXYN h x y n = encode i) :=
    decodeWord_of_eq_encode ((wordXYN_eq_format h x y n).trans e)
  exact ⟨⟨rfl, rfl, rfl⟩,
    ⟨address 1 rfl rfl, address 2 rfl rfl, address 10 rfl rfl, address 11 rfl rfl⟩,
    ⟨byte 3 nn rfl rfl, byte 4 nn rfl rfl, byte 6 nn rfl rfl, byte 7 nn rfl rfl, byte 12 nn rfl rfl⟩,
    ⟨pair 5 0 rfl rfl, pair 9 0 rfl rfl, decodeWord_wordXYN_drw x y rows⟩,
    ⟨pair 8 0 rfl rfl, pair 8 1 rfl rfl, pair 8 2 rfl rfl, pair 8 3 rfl rfl, pair 8 4 rfl rfl, pair 8 5 rfl rfl,
      pair 8 6 rfl rfl, pair 8 7 rfl rfl, pair 8 14 rfl rfl⟩,
    ⟨byte 14 0x9E rfl rfl, byte 14 0xA1 rfl rfl⟩,
    ⟨byte 15 0x07 rfl rfl, byte 15 0x0A rfl rfl, byte 15 0x15 rfl rfl, byte 15 0x18 rfl rfl, byte 15 0x1E rfl rfl,
      byte 15 0x29 rfl rfl, byte 15 0x33 rfl rfl, byte 15 0x55 rfl rfl, byte 15 0x65 rfl rfl⟩⟩

/-! ### What a decoded word is -/

theorem fieldN1_lt (w : Word) : fieldN1 w < 16 := (w.extractLsb' 12 4).isLt

theorem encode_of_decode0 {w : Word} {i : Instr} (d : decode0 w = .ok i) : encode i = w ∧ WellFormed i := by
  unfold decode0 at d
  split_ifs at d with nop cls ret <;> cases d
  · exact ⟨nop.symm, rfl⟩
  · exact ⟨cls.symm, rfl⟩
  · exact ⟨ret.symm, rfl⟩

theorem encode_of_decode8 {w : Word} {i : Instr} (f : fieldN1 w = 8) (d : decode8 w = .ok i) :
    encode i = w ∧ WellFormed i := by
  unfold decode8 at d
  split at d <;> cases d
  all_goals next h => exact ⟨formatXYN_fields f h, rfl⟩

theorem formatXNN_of_selector {h : BitVec 4} {nn : Byte} {w : Word} (f : fieldN1 w = h.toNat)
    (sel : (fieldNN w).toNat = nn.toNat) : formatXNN h (fieldX w) nn = w :=
  BitVec.eq_of_toNat_eq sel ▸ formatXNN_fields f

theorem encode_of_decodeE {w : Word} {i : Instr} (f : fieldN1 w = 14) (d : decodeE w = .ok i) :
    encode i = w ∧ WellFormed i := by
  unfold decodeE at d
  split at d <;> cases d
  all_goals next sel => exact ⟨formatXNN_of_selector f sel, rfl⟩

theorem encode_of_decodeF {w : Word} {i : Instr} (f : fieldN1 w = 15) (d : decodeF w = .ok i) :
    encode i = w ∧ WellFormed i := by
  unfold decodeF at d
  split at d <;> cases d
  all_goals next sel => exact ⟨formatXNN_of_selector f sel, rfl⟩

/-- Whatever a word decodes to has that word. The cases are those of `decodeWord` in its order: `h_1` is family 0, `h_16`
family F. -/
theorem encode_of_decodeWord {w : Word} {i : Instr} (d : decodeWord w = .ok i) : encode i = w ∧ WellFormed i := by
  unfold decodeWord at d
  split at d
  case h_1 => exact encode_of_decode0 d
  case h_2 f | h_3 f | h_11 f | h_12 f =>
    cases d
    exact ⟨formatNNN_fields f, rfl⟩
  case h_4 f | h_5 f | h_7 f | h_8 f | h_13 f =>
    cases d
    exact ⟨formatXNN_fields f, rfl⟩
  case h_6 f | h_10 f =>
    split at d <;> cases d
    next low => exact ⟨formatXYN_fields f low, rfl⟩
  case h_9 f => exact encode_of_decode8 f d
  case h_14 f =>
    cases d
    have lt : fieldN w < 16 := (w.extractLsb' 0 4).isLt
    refine ⟨formatXYN_fields f ?_, decide_eq_true (Nat.le_of_lt_succ lt)⟩
    rw [BitVec.toNat_ofNat, Nat.mod_eq_of_lt lt]
  case h_15 f => exact encode_of_decodeE f d
  case h_16 =>
    simp only [imp_false] at *
    have := fieldN1_lt w
    exact encode_of_decodeF (by omega) d

/-- Settles O4. -/
theorem encodeInvertsDecode : Obligations.EncodeInvertsDecode :=
  fun _ _ d => encode_of_decodeWord d

/-! ### Illegal words -/

/-- A refused word is in the table of 30_encoding.md R59, and the error names it. The cases are the families, as in
`encode_of_decodeWord`; those without an illegal word answer no error. -/
theorem illegalWord_of_decodeWord_error {w : Word} {e : DecodeError} (d : decodeWord w = .error e) :
    e = .unknownOpcode w ∧ Machine.illegalWord w := by
  have := fieldN1_eq w
  have := fieldN_eq w
  have := fieldNN_toNat w
  unfold Machine.illegalWord
  unfold decodeWord at d
  split at d
  case h_1 =>
    unfold decode0 at d
    split_ifs at d with nop cls ret
    cases d
    exact ⟨rfl, .inl ⟨by omega, nop, cls, ret⟩⟩
  case h_2 | h_3 | h_11 | h_12 | h_4 | h_5 | h_7 | h_8 | h_13 | h_14 => cases d
  case h_6 | h_10 =>
    split_ifs at d
    cases d
    exact ⟨rfl, by omega⟩
  case h_9 =>
    unfold decode8 at d
    split at d <;> cases d
    refine ⟨rfl, .inr (.inr (.inl ⟨by omega, ?_⟩))⟩
    simp only [List.mem_cons, List.not_mem_nil, or_false, imp_false] at *
    omega
  case h_15 =>
    unfold decodeE at d
    split at d <;> cases d
    refine ⟨rfl, .inr (.inr (.inr (.inr (.inl ⟨by omega, ?_⟩))))⟩
    simp only [List.mem_cons, List.not_mem_nil, or_false, imp_false] at *
    omega
  case h_16 =>
    have := fieldN1_lt w
    unfold decodeF at d
    split at d <;> cases d
    refine ⟨rfl, .inr (.inr (.inr (.inr (.inr ⟨?_, ?_⟩))))⟩
    all_goals simp only [imp_false] at *
    · omega
    · simp only [List.mem_cons, List.not_mem_nil, or_false]
      omega

/-! ### The masks and matches (30_encoding.md R58) -/

/-- A word has one value under a mask. -/
theorem matchesRow_unique {w mask u v : Word} (m : matchesRow w (mask, u) = true) (m' : matchesRow w (mask, v) = true) :
    u = v :=
  (eq_of_beq m).symm.trans (eq_of_beq m')

theorem matchesRow_FFFF {w v : Word} (m : matchesRow w (0xFFFF, v) = true) : v = w :=
  (eq_of_beq m).symm.trans BitVec.and_allOnes

theorem matchesRow_F000 {w v : Word} (m : matchesRow w (0xF000, v) = true) : v.toNat = fieldN1 w * 4096 := by
  have own := Laws.RowOf.xnn_row (w.extractLsb' 12 4) (fieldX w) (fieldNN w)
  rw [formatXNN_fields rfl] at own
  rw [matchesRow_unique m own, toNat_append_eq, toNat_append_eq, ← fieldN1]
  show (fieldN1 w * 16 + 0) * 256 + 0 = _
  omega

theorem matchesRow_F00F {w v : Word} (m : matchesRow w (0xF00F, v) = true) :
    v.toNat = fieldN1 w * 4096 + fieldN w := by
  have own := Laws.RowOf.xyf_row (w.extractLsb' 12 4) (fieldX w) (fieldY w) (w.extractLsb' 0 4)
  rw [formatXYN_fields rfl rfl] at own
  rw [matchesRow_unique m own, toNat_append_eq, toNat_append_eq, toNat_append_eq, ← fieldN1, ← fieldN]
  show (fieldN1 w * 16 + 0) * 256 + (0 * 16 + fieldN w) = _
  omega

theorem matchesRow_F0FF {w v : Word} (m : matchesRow w (0xF0FF, v) = true) :
    v.toNat = fieldN1 w * 4096 + (fieldNN w).toNat := by
  have own := Laws.RowOf.xff_row (w.extractLsb' 12 4) (fieldX w) (fieldNN w)
  rw [formatXNN_fields rfl] at own
  rw [matchesRow_unique m own, toNat_append_eq, toNat_append_eq, ← fieldN1]
  show (fieldN1 w * 16 + 0) * 256 + (fieldNN w).toNat = _
  omega

/-- The rows by their masks: three whole words, the families with operands alone, those selected by `n`, by `nn`. -/
theorem opcodeMap_by_mask : ∀ row ∈ opcodeMap,
    (row.1 = 0xFFFF ∧ row.2 ∈ [0x0000, 0x00E0, 0x00EE]) ∨
    (row.1 = 0xF000 ∧ row.2 ∈ [0x1000, 0x2000, 0x3000, 0x4000, 0x6000, 0x7000, 0xA000, 0xB000, 0xC000, 0xD000]) ∨
    (row.1 = 0xF00F ∧ row.2 ∈
      [0x5000, 0x8000, 0x8001, 0x8002, 0x8003, 0x8004, 0x8005, 0x8006, 0x8007, 0x800E, 0x9000]) ∨
    (row.1 = 0xF0FF ∧ row.2 ∈
      [0xE09E, 0xE0A1, 0xF007, 0xF00A, 0xF015, 0xF018, 0xF01E, 0xF029, 0xF033, 0xF055, 0xF065]) := by
  simp [opcodeMap]

theorem not_illegalWord_of_matchesRow {w : Word} {row : Word × Word} (mem : row ∈ opcodeMap)
    (m : matchesRow w row = true) : ¬ Machine.illegalWord w := by
  obtain ⟨mask, v⟩ := row
  have family := fieldN1_eq w
  have low := fieldN_eq w
  have lowByte := fieldNN_toNat w
  unfold Machine.illegalWord
  obtain ⟨rfl, hv⟩ | ⟨rfl, hv⟩ | ⟨rfl, hv⟩ | ⟨rfl, hv⟩ := opcodeMap_by_mask _ mem
  · obtain rfl := matchesRow_FFFF m
    simp only [List.mem_cons, List.not_mem_nil, or_false] at hv
    obtain rfl | rfl | rfl := hv <;> decide
  · have value := matchesRow_F000 m
    simp only [List.mem_cons, List.not_mem_nil, or_false, BitVec.toNat_eq, BitVec.reduceToNat] at hv ⊢
    omega
  · have value := matchesRow_F00F m
    simp only [List.mem_cons, List.not_mem_nil, or_false, BitVec.toNat_eq, BitVec.reduceToNat] at hv ⊢
    omega
  · have value := matchesRow_F0FF m
    simp only [List.mem_cons, List.not_mem_nil, or_false, BitVec.toNat_eq, BitVec.reduceToNat] at hv ⊢
    omega

/-- The word of every instruction matches the instruction's row: the family RowOf, gathered. -/
theorem matchesRow_encode (i : Instr) : matchesRow (encode i) (opcodeRow i) = true :=
  match i with
  | .nop => Laws.RowOf.nop
  | .cls => Laws.RowOf.cls
  | .ret => Laws.RowOf.ret
  | .jp nnn => Laws.RowOf.jp nnn
  | .call nnn => Laws.RowOf.call nnn
  | .seImm x nn => Laws.RowOf.seImm x nn
  | .sneImm x nn => Laws.RowOf.sneImm x nn
  | .seReg x y => Laws.RowOf.seReg x y
  | .ldImm x nn => Laws.RowOf.ldImm x nn
  | .addImm x nn => Laws.RowOf.addImm x nn
  | .ldReg x y => Laws.RowOf.ldReg x y
  | .orReg x y => Laws.RowOf.orReg x y
  | .andReg x y => Laws.RowOf.andReg x y
  | .xorReg x y => Laws.RowOf.xorReg x y
  | .addReg x y => Laws.RowOf.addReg x y
  | .sub x y => Laws.RowOf.sub x y
  | .shr x y => Laws.RowOf.shr x y
  | .subn x y => Laws.RowOf.subn x y
  | .shl x y => Laws.RowOf.shl x y
  | .sneReg x y => Laws.RowOf.sneReg x y
  | .ldI nnn => Laws.RowOf.ldI nnn
  | .jpV0 nnn => Laws.RowOf.jpV0 nnn
  | .rnd x nn => Laws.RowOf.rnd x nn
  | .drw x y n => Laws.RowOf.drw x y n
  | .skp x => Laws.RowOf.skp x
  | .sknp x => Laws.RowOf.sknp x
  | .ldVxDT x => Laws.RowOf.ldVxDT x
  | .ldVxK x => Laws.RowOf.ldVxK x
  | .ldDTVx x => Laws.RowOf.ldDTVx x
  | .ldSTVx x => Laws.RowOf.ldSTVx x
  | .addI x => Laws.RowOf.addI x
  | .ldF x => Laws.RowOf.ldF x
  | .ldB x => Laws.RowOf.ldB x
  | .stRegs x => Laws.RowOf.stRegs x
  | .ldRegs x => Laws.RowOf.ldRegs x

theorem opcodeRow_mem_opcodeMap (i : Instr) : opcodeRow i ∈ opcodeMap := by
  cases i <;> simp [opcodeRow, opcodeMap]

theorem matchesRow_of_decodeWord {w : Word} {i : Instr} (d : decodeWord w = .ok i) :
    matchesRow w (opcodeRow i) = true :=
  (encode_of_decodeWord d).1 ▸ matchesRow_encode i

theorem decodeWord_of_not_illegalWord {w : Word} (legal : ¬ Machine.illegalWord w) : ∃ i, decodeWord w = .ok i := by
  cases d : decodeWord w with
  | ok i => exact ⟨i, rfl⟩
  | error e => exact absurd (illegalWord_of_decodeWord_error d).2 legal

theorem decodeWord_of_illegalWord {w : Word} (illegal : Machine.illegalWord w) :
    decodeWord w = .error (.unknownOpcode w) := by
  cases d : decodeWord w with
  | ok i =>
    have legal := not_illegalWord_of_matchesRow (opcodeRow_mem_opcodeMap i) (matchesRow_of_decodeWord d)
    exact absurd illegal legal
  | error e => rw [(illegalWord_of_decodeWord_error d).1]

/-- Settles O5: what the decoder refuses is in the table, and what it reads matches a row, which no word of the table
does. -/
theorem illegalWordsAreThoseOfTheTable : Obligations.IllegalWordsAreThoseOfTheTable :=
  fun _ => ⟨decodeWord_of_illegalWord, decodeWord_of_not_illegalWord⟩

/-- Two rows differ in a bit that both masks fix. -/
def RowsDiffer (a b : Word × Word) : Prop := a.2 &&& b.1 ≠ b.2 &&& a.1

theorem not_matchesRow_both {a b : Word × Word} (differ : RowsDiffer a b) (w : Word) :
    ¬ (matchesRow w a = true ∧ matchesRow w b = true) := by
  rintro ⟨ma, mb⟩
  apply differ
  rw [← eq_of_beq ma, ← eq_of_beq mb, BitVec.and_assoc, BitVec.and_assoc, BitVec.and_comm a.1]

theorem opcodeMap_differ : opcodeMap.Pairwise RowsDiffer := by
  unfold RowsDiffer
  decide

/-- A word matches one row of the opcode map at most. -/
theorem row_eq_of_matchesRow {w : Word} {a b : Word × Word} (ha : a ∈ opcodeMap) (hb : b ∈ opcodeMap)
    (ma : matchesRow w a = true) (mb : matchesRow w b = true) : a = b := by
  by_contra ne
  have symm : Std.Symm RowsDiffer := ⟨fun _ _ => Ne.symm⟩
  exact not_matchesRow_both (opcodeMap_differ.forall ha hb ne) w ⟨ma, mb⟩

/-- Settles O6: the rows differ pairwise in a bit both fix; a decoded word matches its instruction's row; and a word
that matches a row is not illegal, so it decodes, to an instruction whose row can only be that one. -/
theorem rowsAreDisjointAndDecideDecoding : Obligations.RowsAreDisjointAndDecideDecoding := by
  refine ⟨rfl, opcodeMap_differ.imp not_matchesRow_both,
    fun w i d => ⟨opcodeRow_mem_opcodeMap i, matchesRow_of_decodeWord d⟩, fun w row mem m => ?_⟩
  obtain ⟨i, d⟩ := decodeWord_of_not_illegalWord (not_illegalWord_of_matchesRow mem m)
  exact ⟨i, d, row_eq_of_matchesRow (opcodeRow_mem_opcodeMap i) mem (matchesRow_of_decodeWord d) m⟩

/-- Settles O1: ten of the words are the encoder's, and the last one is in the table of illegal words. -/
theorem specWordsDecode : Obligations.SpecWordsDecode :=
  ⟨decodeWord_encode (i := .ret) rfl, decodeWord_encode (i := .jp 0x234) rfl,
    decodeWord_encode (i := .seImm 3 0x42) rfl, decodeWord_encode (i := .seReg 1 2) rfl,
    decodeWord_encode (i := .shr 1 2) rfl, decodeWord_encode (i := .jpV0 0x300) rfl,
    decodeWord_encode (i := .drw 0 1 15) rfl, decodeWord_encode (i := .sknp 5) rfl,
    decodeWord_encode (i := .ldVxK 3) rfl, decodeWord_encode (i := .ldB 10) rfl,
    decodeWord_of_illegalWord (.inl (by decide))⟩

end Sys2Proof
end

section
/-! PROOFS. What an instruction raises at execute (60_exceptions.md R116, R118), and the statements of
41_control_flow.md. -/

namespace Sys2Proof.Machine

/-! ### Frames -/

theorem KeepsAllBut.mono {written more : Part → Prop} {s t : State} (h : KeepsAllBut written s t)
    (sub : ∀ p, written p → more p) : KeepsAllBut more s t :=
  fun p hp => h p fun c => hp (sub p c)

/-- An outcome has one next state. -/
theorem eq_of_next {α : Type} {o : Host.Outcome α Fault Refusal} {a b : α} (h : o = .next a) (h' : o = .next b) :
    a = b :=
  Host.Outcome.next.inj (h.symm.trans h')

/-! ### The faults of execute -/

theorem lowestOffending_toNat (base : Word) : (lowestOffending base).toNat = max base.toNat 4096 :=
  toNat_offending base

theorem zextByte_eq_ofNat (b : Byte) : zextByte b = BitVec.ofNat 16 b.toNat := by
  apply BitVec.eq_of_toNat_eq
  have := b.isLt
  rw [zextByte_toNat, BitVec.toNat_ofNat]
  omega

theorem State.memRead_past (s : State) {base : Word} {n : Nat} (rows : 0 < n) (past : 4096 < base.toNat + n) :
    s.memRead base n = .error (lowestOffending base) :=
  memRead_eq_error.2 ⟨⟨rows, past⟩, rfl⟩

theorem State.memWrite_past (s : State) {base : Word} {bs : List Byte} {n : Nat} (len : bs.length = n + 1)
    (past : 4095 < base.toNat + n) : s.memWrite base bs = .error (lowestOffending base) :=
  memWrite_eq_error.2 ⟨⟨by omega, by omega⟩, rfl⟩

theorem State.memWrite_inside (s : State) {base : Word} {bs : List Byte} {n : Nat} (len : bs.length = n + 1)
    (inside : base.toNat + n ≤ 4095) : s.memWrite base bs = .ok (s.writeBytes base.toNat bs) :=
  memWrite_eq_ok.2 ⟨.inr (by omega), rfl⟩

/-- The condition of a line of the fault table, and what it names. -/
theorem of_ite_eq_some {c : Prop} [Decidable c] {kind kind' : FaultKind} {addr addr' : Word}
    (h : (if c then some (kind, addr) else none) = some (kind', addr')) : c ∧ kind' = kind ∧ addr' = addr := by
  simpa [eq_comm] using h

/-- Where the fault table's condition holds, executing is taking that fault: only the eight instructions of
60_exceptions.md R116 have a condition. -/
theorem exec_of_executeFault {i : Instr} {s : State} {kind : FaultKind} {addr : Word}
    (h : executeFault i s = some (kind, addr)) : exec i s = .next (s.raiseFault i kind addr) := by
  cases i with
  | ret =>
    obtain ⟨empty, rfl, rfl⟩ := of_ite_eq_some h
    show execRet s = _
    simp only [execRet, State.pop_eq_none.2 empty]
  | call nnn =>
    obtain ⟨full, rfl, rfl⟩ := of_ite_eq_some h
    show execCall nnn s = _
    simp only [execCall, State.push_eq_none.2 full]
  | drw x y n =>
    obtain ⟨⟨rows, past⟩, rfl, rfl⟩ := of_ite_eq_some h
    show execDrw x y n s = _
    simp only [execDrw, s.memRead_past rows (base := s.i) (by omega)]
  | skp x =>
    obtain ⟨no_key, rfl, rfl⟩ := of_ite_eq_some h
    show execSkp x s = _
    simp only [execSkp, State.keyIndex_eq_error.2 ⟨no_key, rfl⟩, zextByte_eq_ofNat]
  | sknp x =>
    obtain ⟨no_key, rfl, rfl⟩ := of_ite_eq_some h
    show execSknp x s = _
    simp only [execSknp, State.keyIndex_eq_error.2 ⟨no_key, rfl⟩, zextByte_eq_ofNat]
  | ldB x =>
    obtain ⟨past, rfl, rfl⟩ := of_ite_eq_some h
    show execLdB x s = _
    simp only [execLdB, s.memWrite_past (bcdDigits_length (s.readV x)) past]
  | stRegs x =>
    obtain ⟨past, rfl, rfl⟩ := of_ite_eq_some h
    show execStRegs x s = _
    simp only [execStRegs, s.memWrite_past (s.regBlock_length x) past]
  | ldRegs x =>
    obtain ⟨past, rfl, rfl⟩ := of_ite_eq_some h
    show execLdRegs x s = _
    simp only [execLdRegs, s.memRead_past (base := s.i) (Nat.succ_pos x.val) (by omega)]
  | _ => cases h

/-- An instruction raises the fault its condition names, with the entry of 60_exceptions.md R118. -/
theorem raises_of_executeFault {i : Instr} {s : State} {kind : FaultKind} {addr : Word}
    (h : executeFault i s = some (kind, addr)) : Raises i s kind addr.toNat :=
  ⟨_, exec_of_executeFault h, rfl, rfl, rfl, rfl, rfl, rfl, s.takeFault_keeps kind (s.pc - 2) (encode i) addr⟩

/-- An access that runs past memory is raised with `max(I, 4096)` (60_exceptions.md R117). -/
theorem raises_addressOutOfRange {i : Instr} {s : State}
    (h : executeFault i s = some (.addressOutOfRange, lowestOffending s.i)) :
    Raises i s .addressOutOfRange (max s.i.toNat 4096) :=
  lowestOffending_toNat s.i ▸ raises_of_executeFault h

/-! ### The stack -/

theorem exec_ret {s : State} (h : 0 < s.sp.val) : exec .ret s =
    .next (State.setPc { s with sp := ⟨s.sp.val - 1, by omega⟩ } (s.stackAt ⟨s.sp.val - 1, by omega⟩)) := by
  show execRet s = _
  simp only [execRet, State.pop_eq_some.2 ⟨h, rfl, rfl⟩]

theorem exec_call {s : State} (nnn : Nnn) (h : s.sp.val < 16) : exec (.call nnn) s =
    .next (State.setPc { s with stack := s.stack.set s.sp.val s.pc, sp := ⟨s.sp.val + 1, by omega⟩ } (zextNnn nnn)) := by
  show execCall nnn s = _
  simp only [execCall, State.push_eq_some.2 ⟨h, rfl⟩]

/-- After a push the entry at the old pointer is the pushed one, and the others are as before (10_state.md R23). -/
theorem State.stackAt_set (s : State) (a : Word) (h : s.sp.val < 16) (sp : Fin 17) (k : Fin 16) :
    State.stackAt { s with stack := s.stack.set s.sp.val a, sp := sp } k =
      if s.sp.val = k.val then a else s.stackAt k :=
  Vector.getElem_set h k.isLt

/-- Settles O24: the popped entry is the one below the pointer, and the array is not written. -/
theorem retPopsOrUnderflows : Obligations.RetPopsOrUnderflows := by
  intro s
  refine ⟨fun k hk => ?_, fun empty => raises_of_executeFault (i := .ret) (addr := 0) (if_pos empty)⟩
  have top : (⟨s.sp.val - 1, by omega⟩ : Fin 16) = k := Fin.ext (by simp [hk])
  refine ⟨_, exec_ret (by omega), congrArg s.stackAt top, by simp [hk], fun p hp => ?_⟩
  cases p with
  | pc => exact absurd (.inl rfl) hp
  | sp => exact absurd (.inr rfl) hp
  | _ => rfl

/-- Settles O25. -/
theorem jpSetsPc : Obligations.JpSetsPc :=
  fun s nnn => ⟨_, rfl, zextNnn_toNat nnn, s.setPc_keeps _⟩

/-- Settles O26: the entry at the pointer gets the advanced `pc`, and every other one is kept. -/
theorem callPushesOrOverflows : Obligations.CallPushesOrOverflows := by
  intro s nnn
  refine ⟨fun k hk => ?_, fun full => raises_of_executeFault (i := .call nnn) (addr := 0) (if_pos full)⟩
  refine ⟨_, exec_call nnn (by omega), ?_, by simp [hk], zextNnn_toNat nnn, fun p hp => ?_⟩
  · rw [State.setPc_stackAt, State.stackAt_set, if_pos hk]
  · cases p with
    | stack j =>
      have ne : ¬ s.sp.val = j.val := fun e => hp (.inr (.inr (congrArg Part.stack (Fin.ext (e.symm.trans hk)))))
      rw [SamePart, State.setPc_stackAt, State.stackAt_set, if_neg ne]
    | pc => exact absurd (.inl rfl) hp
    | sp => exact absurd (.inr (.inl rfl)) hp
    | _ => rfl

/-! ### The skips and the jump by V0 -/

theorem State.skip_pc (s : State) (c : Bool) : (s.skip c).pc = if c then s.pc + 2 else s.pc := by
  rw [State.skip_eq]
  rfl

theorem State.skip_keeps (s : State) (c : Bool) : KeepsAllBut (fun p => p = .pc) s (s.skip c) :=
  s.skip_eq c ▸ s.setPc_keeps _

/-- Settles O27: each is the shared skip on its own comparison. -/
theorem skipsCompareRegisters : Obligations.SkipsCompareRegisters := by
  intro s x y nn
  exact ⟨⟨_, rfl, by simp [State.skip_pc], s.skip_keeps _⟩, ⟨_, rfl, by simp [State.skip_pc], s.skip_keeps _⟩,
    ⟨_, rfl, by simp [State.skip_pc], s.skip_keeps _⟩, ⟨_, rfl, by simp [State.skip_pc], s.skip_keeps _⟩⟩

/-- Settles O28: a 12-bit and an 8-bit number add without a wrap. -/
theorem jpV0AddsV0 : Obligations.JpV0AddsV0 := by
  intro s nnn
  have sum : (zextNnn nnn + zextByte (s.readV regV0)).toNat = (nnn.toNat + (s.readV 0).toNat) % 65536 := by
    rw [BitVec.toNat_add, zextNnn_toNat, zextByte_toNat]
  refine ⟨_, rfl, sum, ?_, s.setPc_keeps _⟩
  have := nnn.isLt
  have := (s.readV 0).isLt
  rw [State.setPc_pc, sum]
  omega

end Sys2Proof.Machine
end

section
/-! PROOFS. The statements of 42_alu.md. -/

namespace Sys2Proof.Machine

/-! ### Loads and logic -/

/-- Settles O29. -/
theorem loadsCopyIntoVx : Obligations.LoadsCopyIntoVx :=
  fun s x _ _ => ⟨⟨_, rfl, s.writeV_readV_self x _, s.writeV_keeps x _⟩,
    ⟨_, rfl, s.writeV_readV_self x _, s.writeV_keeps x _⟩⟩

/-- Settles O30. -/
theorem addImmediateWrapsWithoutFlag : Obligations.AddImmediateWrapsWithoutFlag := by
  intro s x nn
  refine ⟨_, rfl, ?_, s.writeV_keeps x _⟩
  rw [State.writeV_readV_self, BitVec.toNat_add]

/-- Settles O31: a bit of the result is read from the two bits alone. -/
theorem logicActsBitByBit : Obligations.LogicActsBitByBit := by
  intro s x y
  refine ⟨⟨_, rfl, fun b => ?_, s.writeV_keeps x _⟩, ⟨_, rfl, fun b => ?_, s.writeV_keeps x _⟩,
    ⟨_, rfl, fun b => ?_, s.writeV_keeps x _⟩⟩
  · rw [State.writeV_readV_self, BitVec.getLsbD_or]
  · rw [State.writeV_readV_self, BitVec.getLsbD_and]
  · rw [State.writeV_readV_self, BitVec.getLsbD_xor]

/-! ### A result, then the flag (42_alu.md R94, R95, R97) -/

/-- The result stays in VX unless VX is VF, where the flag written after it stays. -/
theorem State.result_then_flag (s : State) (x : Reg) (result flag : Byte) :
    (x ≠ regVF → ((s.writeV x result).setVF flag).readV x = result) ∧
    ((s.writeV x result).setVF flag).readV regVF = flag ∧
    KeepsAllBut (fun p => p = .v x ∨ p = .v regVF) s ((s.writeV x result).setVF flag) :=
  ⟨fun ne => (writeV_readV_ne _ flag ne).trans (writeV_readV_self s x result), writeV_readV_self _ regVF flag,
    writeV_writeV_keeps s x regVF result flag⟩

/-- Settles O32. -/
theorem addSetsCarry : Obligations.AddSetsCarry := by
  intro s x y
  obtain ⟨result, flag, frame⟩ :=
    s.result_then_flag x (s.readV x + s.readV y) (carryFlag (s.readV x) (s.readV y))
  exact ⟨_, rfl, fun ne => by rw [result ne, BitVec.toNat_add], flag, frame⟩

/-- The difference of two bytes is the integer difference modulo 256. -/
theorem toNat_sub_emod (a b : Byte) : ((a - b).toNat : Int) = (a.toNat - b.toNat : Int) % 256 := by
  have := a.isLt
  have := b.isLt
  rw [BitVec.toNat_sub]
  omega

/-- Settles O33. -/
theorem subtractionsSetNotBorrow : Obligations.SubtractionsSetNotBorrow := by
  intro s x y
  obtain ⟨result, flag, frame⟩ :=
    s.result_then_flag x (s.readV x - s.readV y) (notBorrowFlag (s.readV x) (s.readV y))
  obtain ⟨result', flag', frame'⟩ :=
    s.result_then_flag x (s.readV y - s.readV x) (notBorrowFlag (s.readV y) (s.readV x))
  exact ⟨⟨_, rfl, fun ne => by rw [result ne, toNat_sub_emod], flag, frame⟩,
    ⟨_, rfl, fun ne => by rw [result' ne, toNat_sub_emod], flag', frame'⟩⟩

/-! ### The flag, then a result: the shifts (42_alu.md R96, R98) -/

/-- A shift reads its source after the flag is written, so a source that is VF is read as the flag. -/
theorem State.shift_spec (s : State) (x y : Reg) (flag result : Byte → Byte) :
    (x ≠ regVF → (s.shift x y flag result).readV regVF = flag (s.readV (s.shiftSource x y))) ∧
    (s.shiftSource x y ≠ regVF → (s.shift x y flag result).readV x = result (s.readV (s.shiftSource x y))) ∧
    (s.shiftSource x y = regVF →
      (s.shift x y flag result).readV x = result (flag (s.readV (s.shiftSource x y)))) ∧
    KeepsAllBut (fun p => p = .v x ∨ p = .v regVF) s (s.shift x y flag result) := by
  unfold shift
  refine ⟨fun ne => ?_, fun ne => ?_, fun e => ?_, (s.writeV_writeV_keeps regVF x _ _).mono fun _ => Or.symm⟩
  · rw [writeV_readV_ne _ _ ne.symm, setVF_eq, writeV_readV_self]
  · rw [writeV_readV_self, setVF_eq, writeV_readV_ne _ _ ne]
  · rw [writeV_readV_self, e, setVF_eq, writeV_readV_self]

theorem lowBitFlag_toNat (a : Byte) : (lowBitFlag a).toNat = a.toNat % 2 := by
  unfold lowBitFlag
  rw [BitVec.toNat_and, show (1 : Byte).toNat = 1 from rfl, Nat.and_one_is_mod]

theorem highBitFlag_toNat (a : Byte) : (highBitFlag a).toNat = a.toNat / 128 := by
  have := a.isLt
  unfold highBitFlag
  rw [BitVec.toNat_and, show (1 : Byte).toNat = 1 from rfl, Nat.and_one_is_mod, BitVec.toNat_ushiftRight,
    Nat.shiftRight_eq_div_pow]
  omega

theorem shiftRight_one_toNat (a : Byte) : (a >>> 1).toNat = a.toNat / 2 := by
  rw [BitVec.toNat_ushiftRight, Nat.shiftRight_eq_div_pow, Nat.pow_one]

theorem shiftLeft_one_toNat (a : Byte) : (a <<< 1).toNat = a.toNat * 2 % 256 := by
  rw [BitVec.toNat_shiftLeft, Nat.shiftLeft_eq, Nat.pow_one]

/-- Settles O34. -/
theorem shiftRightHalves : Obligations.ShiftRightHalves := by
  intro s x y src hsrc
  obtain rfl : src = s.shiftSource x y := hsrc
  obtain ⟨flag, result, fromFlag, frame⟩ := s.shift_spec x y lowBitFlag (fun b => b >>> 1)
  refine ⟨_, rfl, fun ne => by rw [flag ne, lowBitFlag_toNat], fun ne => by rw [result ne, shiftRight_one_toNat],
    fun e => (fromFlag e).trans (BitVec.eq_of_toNat_eq ?_), frame⟩
  rw [shiftRight_one_toNat, lowBitFlag_toNat, show (0 : Byte).toNat = 0 from rfl]
  omega

/-- Settles O35. -/
theorem shiftLeftDoubles : Obligations.ShiftLeftDoubles := by
  intro s x y src hsrc
  obtain rfl : src = s.shiftSource x y := hsrc
  obtain ⟨flag, result, fromFlag, frame⟩ := s.shift_spec x y highBitFlag (fun b => b <<< 1)
  refine ⟨_, rfl, fun ne => by rw [flag ne, highBitFlag_toNat], fun ne => by rw [result ne, shiftLeft_one_toNat],
    fun e => (fromFlag e).trans (BitVec.eq_of_toNat_eq ?_), frame⟩
  have := (s.readV (s.shiftSource x y)).isLt
  rw [shiftLeft_one_toNat, highBitFlag_toNat, apply_ite BitVec.toNat]
  split
  · show _ = 2
    omega
  · show _ = 0
    omega

/-! ### The random byte -/

/-- Settles O36: the draw is any byte, since `Config.randomByte` is opaque (log 4). -/
theorem randomIsOneMaskedDraw : Obligations.RandomIsOneMaskedDraw := by
  intro s x nn
  refine ⟨_, rfl, fun b => ?_, rfl, fun p hp => ?_⟩
  · rw [State.maskDraw, State.writeV_readV_self, BitVec.getLsbD_and]
  · have written : p ≠ .v x := fun e => hp (.inl e)
    cases p with
    | draws => exact absurd (.inr rfl) hp
    | v r => exact (s.countDraw.writeV_keeps x _ (.v r) written)
    | _ => rfl

end Sys2Proof.Machine
end

section
/-! PROOFS. The statements of 43_index_memory.md, and of 20_memory.md on a byte written and on memories. -/

namespace Sys2Proof.Machine

/-! ### The index register -/

/-- Settles O37: five times a byte does not wrap. -/
theorem indexLoads : Obligations.IndexLoads := by
  intro s x nnn
  refine ⟨⟨_, rfl, zextNnn_toNat nnn, s.setI_keeps _⟩, ⟨_, rfl, ?_, s.setI_keeps _⟩⟩
  have := (s.readV x).isLt
  rw [State.setI_i, BitVec.toNat_mul, zextByte_toNat]
  show _ * 5 % 65536 = _
  omega

/-- Settles O38. -/
theorem addToIndexWrapsWithoutFlag : Obligations.AddToIndexWrapsWithoutFlag := by
  intro s x
  refine ⟨_, rfl, ?_, s.setI_keeps _⟩
  rw [State.setI_i, BitVec.toNat_add, zextByte_toNat]

/-! ### Memory -/

/-- Settles O44. -/
theorem readReturnsTheLastWrite : Obligations.ReadReturnsTheLastWrite :=
  fun s a b v _ => ⟨(s.readByte_writeByte a a v).trans (if_pos rfl),
    fun ne => (s.readByte_writeByte a b v).trans (if_neg ne)⟩

/-- Byte `k` of a run of byte writes reads back at its address. -/
theorem State.readByte_writeBytes_of_getElem? (s : State) (a : Nat) {bs : List Byte} {k : Nat} {b : Byte}
    (h : bs[k]? = some b) : (s.writeBytes a bs).readByte (a + k) = b := by
  rw [readByte_writeBytes, if_pos (Nat.le_add_right a k), Nat.add_sub_cancel_left, h, Option.getD_some]

/-! ### BCD and the register block -/

theorem exec_ldB {s : State} (x : Reg) (inside : s.i.toNat + 2 ≤ 4095) :
    exec (.ldB x) s = .next (s.writeBytes s.i.toNat (bcdDigits (s.readV x))) := by
  show execLdB x s = _
  simp only [execLdB, s.memWrite_inside (bcdDigits_length (s.readV x)) inside]

/-- Settles O39. -/
theorem bcdStoresThreeDigits : Obligations.BcdStoresThreeDigits := by
  intro s x
  refine ⟨fun inside => ?_, fun past => raises_addressOutOfRange (i := .ldB x) (if_pos past)⟩
  have digit {k b} (h : (bcdDigits (s.readV x))[k]? = some b) :=
    congrArg BitVec.toNat (s.readByte_writeBytes_of_getElem? s.i.toNat h)
  have := (s.readV x).isLt
  refine ⟨_, exec_ldB x inside, (digit (k := 0) rfl).trans ?_, (digit (k := 1) rfl).trans ?_,
    (digit (k := 2) rfl).trans ?_, (s.writeBytes_keeps _ _).mono ?_⟩
  · rw [BitVec.toNat_ofNat]
    omega
  · rw [BitVec.toNat_ofNat]
    omega
  · rw [BitVec.toNat_ofNat]
    omega
  · rintro p ⟨n, low, high, rfl⟩
    rw [bcdDigits_length] at high
    exact ⟨n - s.i.toNat, by omega, by rw [Nat.add_sub_cancel' low]⟩

theorem exec_stRegs {s : State} {x : Reg} (inside : s.i.toNat + x.val ≤ 4095) :
    exec (.stRegs x) s = .next (s.writeBytes s.i.toNat (s.regBlock x)) := by
  show execStRegs x s = _
  simp only [execStRegs, s.memWrite_inside (s.regBlock_length x) inside]

theorem State.readByte_store (s : State) {x r : Reg} (h : r ≤ x) :
    (s.writeBytes s.i.toNat (s.regBlock x)).readByte (s.i.toNat + r.val) = s.readV r :=
  s.readByte_writeBytes_of_getElem? _ (s.regBlock_getElem? x r h)

/-- Settles O40. -/
theorem storeWritesTheBlock : Obligations.StoreWritesTheBlock := by
  intro s x
  refine ⟨fun inside => ?_, fun past => raises_addressOutOfRange (i := .stRegs x) (if_pos past)⟩
  refine ⟨_, exec_stRegs inside, fun r h => s.readByte_store h, (s.writeBytes_keeps _ _).mono ?_⟩
  rintro p ⟨n, low, high, rfl⟩
  rw [State.regBlock_length] at high
  have := x.isLt
  refine ⟨⟨n - s.i.toNat, by omega⟩, Fin.le_def.2 (by simp; omega), ?_⟩
  rw [Nat.add_sub_cancel' low]

theorem exec_ldRegs {s : State} {x : Reg} (inside : s.i.toNat + x.val ≤ 4095) :
    exec (.ldRegs x) s = .next (s.loadBlock 0 (s.readBytes s.i.toNat (x.val + 1))) := by
  show execLdRegs x s = _
  simp only [execLdRegs, State.memRead_eq_ok.2 ⟨.inr (show s.i.toNat + (x.val + 1) ≤ 4096 by omega), rfl⟩]

/-- Loading the bytes at `a` into V0..VX: each of them gets its byte, and the other registers stay. -/
theorem State.loadBlock_readBytes_readV (s : State) (a : Nat) (x r : Reg) :
    (s.loadBlock 0 (s.readBytes a (x.val + 1))).readV r = if r ≤ x then s.readByte (a + r.val) else s.readV r := by
  rw [loadBlock_readV, if_pos (Nat.zero_le _), readBytes_getElem?, Nat.sub_zero]
  by_cases h : r ≤ x
  · rw [if_pos (Nat.lt_succ_of_le h), if_pos h, Option.getD_some]
  · rw [if_neg (fun c => h (Nat.le_of_lt_succ c)), if_neg h, Option.getD_none]

/-- Settles O41. -/
theorem loadReadsTheBlock : Obligations.LoadReadsTheBlock := by
  intro s x
  refine ⟨fun inside => ?_, fun past => raises_addressOutOfRange (i := .ldRegs x) (if_pos past)⟩
  refine ⟨_, exec_ldRegs inside, fun r h => (s.loadBlock_readBytes_readV _ x r).trans (if_pos h), fun p hp => ?_⟩
  cases p with
  | v r => exact (s.loadBlock_readBytes_readV _ x r).trans (if_neg fun h => hp ⟨r, h, rfl⟩)
  | _ =>
    rw [State.loadBlock_eq]
    rfl

/-- Settles O42: the store leaves I alone, so the load reads the addresses it wrote. -/
theorem storeThenLoadRestoresRegisters : Obligations.StoreThenLoadRestoresRegisters := by
  intro s t u x inside stored sameI sameBytes
  obtain rfl : _ = t := eq_of_next (exec_stRegs inside) stored
  have keptI : (s.writeBytes s.i.toNat (s.regBlock x)).i = s.i := by rw [State.writeBytes_eq]
  rw [keptI] at sameI sameBytes
  obtain ⟨w, loaded, values, _⟩ := (loadReadsTheBlock u x).1 (sameI ▸ inside)
  refine ⟨w, loaded, fun r h => ?_⟩
  rw [values r h, sameI, sameBytes r h, s.readByte_store h]

/-- Settles O43: the two registers are stored at the two addresses of the word, the first one high. -/
theorem storedCodeIsFetched : Obligations.StoredCodeIsFetched := by
  intro s t x r q pc inside stored next hq hpc
  obtain rfl : _ = t := eq_of_next (exec_stRegs inside) stored
  have hr : r ≤ x := Fin.le_def.2 (by have := Fin.le_def.1 hq; omega)
  have hq' := Fin.le_def.1 hq
  refine ⟨_, State.fetchWord_eq_ok.2 ⟨by rw [State.setPc_pc]; omega, rfl⟩, ?_⟩
  have high := s.readByte_store hr
  have low := s.readByte_store hq
  rw [wordOfBytes_toNat, State.setPc_pc, State.setPc_readByte, State.setPc_readByte, hpc, high, Nat.add_assoc, ← next,
    low]

/-! ### Equal reads make equal memories -/

/-- What is listed in a canonical memory can be told from its reads. -/
theorem Memory.find_eq_of_read_eq {cfg : Config} {m m' : Memory} (wf : Memory.wf cfg m)
    (same : ∀ a < 4096, Memory.read cfg m a = Memory.read cfg m' a) {a : Nat} {b : Byte}
    (h : Memory.find a m = some b) : Memory.find a m' = some b := by
  obtain ⟨inside, differs⟩ := wf.2 (a, b) (Memory.mem_of_find h)
  have read : Memory.read cfg m' a = b := by
    rw [← same a inside, Memory.read, h, Option.getD_some]
  cases h' : Memory.find a m' with
  | some b' => rw [← read, Memory.read, h', Option.getD_some]
  | none =>
    rw [Memory.read, h', Option.getD_none] at read
    exact absurd read.symm differs

theorem Memory.mem_of_read_eq {cfg : Config} {m m' : Memory} (wf : Memory.wf cfg m)
    (same : ∀ a < 4096, Memory.read cfg m a = Memory.read cfg m' a) {c : Host.Cell} (h : c ∈ m) : c ∈ m' :=
  Memory.mem_of_find (Memory.find_eq_of_read_eq wf same (Memory.find_of_mem wf.1 h))

/-- Settles O45: the two memories list the same cells, in the same order. -/
theorem equalReadsMakeEqualMemories : Obligations.EqualReadsMakeEqualMemories := by
  intro cfg m m' wf wf' same
  have : Std.Antisymm (fun c d : Host.Cell => c.1 < d.1) := ⟨fun _ _ h h' => absurd h (Nat.lt_asymm h')⟩
  have : Std.Irrefl (fun c d : Host.Cell => c.1 < d.1) := ⟨fun _ => Nat.lt_irrefl _⟩
  exact wf.1.eq_of_mem_iff wf'.1 fun c =>
    ⟨Memory.mem_of_read_eq wf same, Memory.mem_of_read_eq wf' fun a ha => (same a ha).symm⟩

end Sys2Proof.Machine
end

section
/-! PROOFS. The statements of 44_display.md. -/

namespace Sys2Proof.Machine

/-- Settles O46. -/
theorem clearTurnsEveryPixelOff : Obligations.ClearTurnsEveryPixelOff := by
  intro s
  refine ⟨_, rfl, fun p => BitVec.getLsbD_zero, fun q hq => ?_⟩
  cases q with
  | pixel p => exact absurd ⟨p, rfl⟩ hq
  | _ => rfl

/-- A sprite writes pixels and VF alone. -/
theorem State.drawSprite_keeps (s : State) (ox oy : Nat) (rows : List Byte) :
    KeepsAllBut (fun q => q = .v regVF ∨ ∃ p, q = .pixel p) s (s.drawSprite ox oy rows) := by
  intro q hq
  cases q with
  | v r => exact writeV_readV_ne _ _ fun e => hq (.inl (congrArg Part.v e))
  | pixel p => exact absurd (.inr ⟨p, rfl⟩) hq
  | _ => rfl

theorem exec_drw {s : State} (x y : Reg) {n : Nat} (inside : n = 0 ∨ s.i.toNat + n - 1 ≤ 4095) :
    exec (.drw x y n) s =
      .next (s.drawSprite (s.readV x).toNat (s.readV y).toNat (s.readBytes s.i.toNat n)) := by
  show execDrw x y n s = _
  simp only [execDrw, State.memRead_eq_ok.2 ⟨show n = 0 ∨ s.i.toNat + n ≤ 4096 by omega, rfl⟩]

/-- The pixels of the sprite that DXYN reads are the covered ones (44_display.md R107). -/
theorem mem_spritePixels_iff_covered {s : State} {x y : Reg} {n p : Nat} :
    p ∈ spritePixels (s.readV x).toNat (s.readV y).toNat 0 (s.readBytes s.i.toNat n) ↔ Covered s x y n p := by
  rw [mem_spritePixels]
  simp only [State.readBytes_getElem?, Option.ite_none_right_eq_some, Option.some.injEq, Nat.zero_add]
  constructor
  · rintro ⟨r, row, ⟨hr, rfl⟩, c, hc, set, e⟩
    exact ⟨r, hr, c, hc, set, e⟩
  · rintro ⟨r, hr, c, hc, set, e⟩
    exact ⟨r, _, ⟨hr, rfl⟩, c, hc, set, e⟩

/-- What DXYN does to the display: the covered pixels are flipped, and VF says whether one of them was lit. -/
theorem State.drawSprite_spec (s : State) (x y : Reg) {n : Nat} (rows : n ≤ 15) {t : State}
    (ht : t = s.drawSprite (s.readV x).toNat (s.readV y).toNat (s.readBytes s.i.toNat n)) :
    (∀ p, Covered s x y n p → t.pixel p = !s.pixel p) ∧ (∀ p, ¬ Covered s x y n p → t.pixel p = s.pixel p) ∧
    ((∃ p, Covered s x y n p ∧ s.pixel p = true) → t.readV regVF = 1) ∧
    ((¬ ∃ p, Covered s x y n p ∧ s.pixel p = true) → t.readV regVF = 0) := by
  subst ht
  have nodup := spritePixels_nodup (s.readV x).toNat (s.readV y).toNat 0 (s.readBytes s.i.toNat n)
    (by rw [readBytes_length]; omega)
  have pixel := drawPixels_fst s.disp nodup fun _ => spritePixels_lt
  have hit := drawPixels_snd s.disp nodup fun _ => spritePixels_lt
  have any : (drawPixels s.disp
      (spritePixels (s.readV x).toNat (s.readV y).toNat 0 (s.readBytes s.i.toNat n))).2 = true ↔
      ∃ p, Covered s x y n p ∧ s.pixel p = true := by
    rw [hit, List.any_eq_true]
    simp only [mem_spritePixels_iff_covered]
    rfl
  have flag : (s.drawSprite (s.readV x).toNat (s.readV y).toNat (s.readBytes s.i.toNat n)).readV regVF =
      collisionFlag (drawPixels s.disp _).2 := writeV_readV_self _ regVF _
  refine ⟨fun p covered => ?_, fun p free => ?_, fun lit => ?_, fun dark => ?_⟩
  · refine (pixel p).trans ?_
    rw [decide_eq_true (mem_spritePixels_iff_covered.2 covered), Bool.xor_true]
    rfl
  · refine (pixel p).trans ?_
    rw [decide_eq_false (mt mem_spritePixels_iff_covered.1 free), Bool.xor_false]
    rfl
  · rw [flag, any.2 lit]
    rfl
  · rw [flag, Bool.eq_false_iff.2 (mt any.1 dark)]
    rfl

/-- Settles O47. -/
theorem drawFlipsAndReportsCollision : Obligations.DrawFlipsAndReportsCollision := by
  intro s x y n rows
  refine ⟨fun inside => ?_, fun past => raises_addressOutOfRange (i := .drw x y n) (if_pos past)⟩
  obtain ⟨flipped, kept, lit, dark⟩ := s.drawSprite_spec x y rows rfl
  refine ⟨_, exec_drw x y inside, flipped, lit, dark, fun q hq => ?_⟩
  cases q with
  | pixel p => exact kept p fun c => hq (.inr ⟨p, c, rfl⟩)
  | _ =>
    refine State.drawSprite_keeps _ _ _ _ _ ?_
    rintro (e | ⟨p, e⟩)
    · exact hq (.inl e)
    · cases e

/-- What is covered depends on I, VX, VY and the bytes of memory alone. -/
theorem covered_congr {s u : State} {x y : Reg} (hi : u.i = s.i) (hx : u.readV x = s.readV x)
    (hy : u.readV y = s.readV y) (bytes : ∀ a, u.readByte a = s.readByte a) (n p : Nat) :
    Covered u x y n p ↔ Covered s x y n p := by
  unfold Covered
  simp only [hi, hx, hy, bytes]

/-- Settles O48: the second draw covers the same pixels, since neither the first draw nor the change of `pc` touches I,
VX, VY or memory. -/
theorem drawTwiceRestoresTheDisplay : Obligations.DrawTwiceRestoresTheDisplay := by
  intro s t u x y n rows inside hx hy first between
  obtain rfl : _ = t := eq_of_next (exec_drw x y inside) first
  have frame := s.drawSprite_keeps (s.readV x).toNat (s.readV y).toNat (s.readBytes s.i.toNat n)
  have register {r : Reg} (ne : r ≠ regVF) : u.readV r = s.readV r := by
    refine (between (.v r) (by simp)).trans (frame (.v r) ?_)
    simpa using ne
  have hi : u.i = s.i := between .i (by simp)
  have covered := covered_congr hi (register hx) (register hy) (fun a => between (.byte a) (by simp)) n
  obtain ⟨flipped, kept, -, -⟩ := s.drawSprite_spec x y rows rfl
  have pixel (p : Nat) := between (.pixel p) (by simp)
  have flippedOnce (p : Nat) (c : Covered s x y n p) : u.pixel p = !s.pixel p := (pixel p).trans (flipped p c)
  obtain ⟨flipped', kept', lit, dark⟩ := u.drawSprite_spec x y rows rfl
  have collides : (∃ p, Covered u x y n p ∧ u.pixel p = true) ↔ ∃ p, Covered s x y n p ∧ s.pixel p = false :=
    exists_congr fun p => (and_congr_left' (covered p)).trans
      (and_congr_right fun c => by rw [flippedOnce p c, Bool.not_eq_true'])
  refine ⟨_, exec_drw x y (hi ▸ inside), fun p => ?_, fun one => ?_, fun c => lit (collides.2 c)⟩
  · by_cases c : Covered s x y n p
    · rw [flipped' p ((covered p).2 c), flippedOnce p c, Bool.not_not]
    · rw [kept' p (mt (covered p).1 c)]
      exact (pixel p).trans (kept p c)
  · by_contra missed
    rw [dark (mt collides.1 missed)] at one
    cases one

end Sys2Proof.Machine
end

section
/-! PROOFS. The statements of 45_timers_keys.md. -/

namespace Sys2Proof.Machine

theorem exec_skp {s : State} {x : Reg} (key : (s.readV x).toNat ≤ 15) :
    exec (.skp x) s = .next (s.skip (s.keyOf x)) := by
  show execSkp x s = _
  simp only [execSkp, State.keyIndex_eq_ok.2 ⟨key, rfl⟩, State.keyOf]

theorem exec_sknp {s : State} {x : Reg} (key : (s.readV x).toNat ≤ 15) :
    exec (.sknp x) s = .next (s.skip (!s.keyOf x)) := by
  show execSknp x s = _
  simp only [execSknp, State.keyIndex_eq_ok.2 ⟨key, rfl⟩, State.keyOf]

/-- A key index above 15 is reported as the offending address (45_timers_keys.md R109, R110). -/
theorem raises_keyIndex {i : Instr} {s : State} {x : Reg}
    (h : executeFault i s = some (.addressOutOfRange, BitVec.ofNat 16 (s.readV x).toNat)) :
    Raises i s .addressOutOfRange (s.readV x).toNat := by
  have addr := raises_of_executeFault h
  rwa [← zextByte_eq_ofNat, zextByte_toNat] at addr

/-- Settles O49. -/
theorem keySkipsTestTheLevel : Obligations.KeySkipsTestTheLevel := by
  intro s x
  refine ⟨fun key =>
    ⟨⟨_, exec_skp key, s.skip_pc _, s.skip_keeps _⟩, ⟨_, exec_sknp key, ?_, s.skip_keeps _⟩⟩,
    fun above => ⟨raises_keyIndex (i := .skp x) (if_pos above), raises_keyIndex (i := .sknp x) (if_pos above)⟩⟩
  rw [State.skip_pc, State.keyOf]
  cases s.keyPressed (s.readV x).toNat <;> rfl

/-- Settles O50. -/
theorem timerAccessCopies : Obligations.TimerAccessCopies :=
  fun s x => ⟨⟨_, rfl, s.writeV_readV_self x _, s.writeV_keeps x _⟩, ⟨_, rfl, rfl, s.setDT_keeps _⟩,
    ⟨_, rfl, rfl, s.setST_keeps _⟩⟩

theorem exec_ldVxK_some {s : State} {k : Nat} (x : Reg) (h : s.lowestKey = some k) :
    exec (.ldVxK x) s = .next (s.writeV x (BitVec.ofNat 8 k)) := by
  show execLdVxK x s = _
  simp only [execLdVxK, h]

theorem exec_ldVxK_none {s : State} (x : Reg) (h : s.lowestKey = none) :
    exec (.ldVxK x) s = .next (s.setPc (s.pc - 2)) := by
  show execLdVxK x s = _
  simp only [execLdVxK, h]

/-- Settles O51. -/
theorem keyWaitTakesTheLowestKeyOrRetries : Obligations.KeyWaitTakesTheLowestKeyOrRetries := by
  intro s x
  refine ⟨fun k hk pressed below => ?_, fun released =>
    ⟨_, exec_ldVxK_none x (State.lowestKey_eq_none.2 released), rfl, s.setPc_keeps _⟩⟩
  refine ⟨_, exec_ldVxK_some x (State.lowestKey_eq_some.2 ⟨hk, pressed, below⟩), ?_, s.writeV_keeps x _⟩
  rw [State.writeV_readV_self, BitVec.toNat_ofNat]
  omega

end Sys2Proof.Machine
end

section
/-! PROOFS. What executing an instruction may write, in the words of the claims, and the statements of 10_state.md and
60_exceptions.md on one cycle. -/

namespace Sys2Proof.Machine

/-! ### What an instruction that does not fault may write -/

/-- The instructions that may leave `pc` elsewhere than at the following instruction (10_state.md R18). -/
def writesPc : Instr → Bool
  | .ret | .jp _ | .call _ | .jpV0 _ | .ldVxK _ => true
  | .seImm _ _ | .sneImm _ _ | .seReg _ _ | .sneReg _ _ | .skp _ | .sknp _ => true
  | _ => false

/-- The parts an instruction may write when it raises no fault, from the lists of 10_state.md and 20_memory.md R45. -/
def Writes (i : Instr) (s : State) : Part → Prop
  | .v r => MayWriteV i r
  | .pc => writesPc i = true
  | .i => (∃ nnn, i = .ldI nnn) ∨ (∃ x, i = .addI x) ∨ ∃ x, i = .ldF x
  | .sp => i = .ret ∨ ∃ nnn, i = .call nnn
  | .stack _ => ∃ nnn, i = .call nnn
  | .dt => ∃ x, i = .ldDTVx x
  | .st => ∃ x, i = .ldSTVx x
  | .pixel _ => i = .cls ∨ ∃ x y n, i = .drw x y n
  | .byte a => storesTo i s a
  | .draws => ∃ x nn, i = .rnd x nn
  | .key _ | .run | .fault | .cfg => False

theorem of_ite_eq_none {c : Prop} [Decidable c] {a : FaultKind × Word} (h : (if c then some a else none) = none) :
    ¬ c := by
  simpa using h

/-- An instruction that raises no fault answers a next state and keeps every part it does not write: its own frame, put
in terms of `Writes`. -/
theorem exec_frame {i : Instr} {s : State} (h : executeFault i s = none) :
    ∃ t, exec i s = .next t ∧ KeepsAllBut (Writes i s) s t := by
  cases i with
  | nop => exact ⟨s, rfl, keepsAllBut_refl _ s⟩
  | cls =>
    obtain ⟨t, run, -, frame⟩ := clearTurnsEveryPixelOff s
    exact ⟨t, run, frame.mono (by rintro _ ⟨p, rfl⟩; exact .inl rfl)⟩
  | ret =>
    have nonempty := of_ite_eq_none h
    have := s.sp.isLt
    obtain ⟨t, run, -, -, frame⟩ := (retPopsOrUnderflows s).1 ⟨s.sp.val - 1, by omega⟩ (by simp; omega)
    exact ⟨t, run, frame.mono (by rintro _ (rfl | rfl); exacts [rfl, .inl rfl])⟩
  | call nnn =>
    have room := of_ite_eq_none h
    have := s.sp.isLt
    obtain ⟨t, run, -, -, -, frame⟩ := (callPushesOrOverflows s nnn).1 ⟨s.sp.val, by omega⟩ rfl
    exact ⟨t, run, frame.mono (by rintro _ (rfl | rfl | rfl); exacts [rfl, .inr ⟨nnn, rfl⟩, ⟨nnn, rfl⟩])⟩
  | jp | jpV0 => exact ⟨_, rfl, (s.setPc_keeps _).mono (by rintro _ rfl; rfl)⟩
  | seImm | sneImm | seReg | sneReg => exact ⟨_, rfl, (s.skip_keeps _).mono (by rintro _ rfl; rfl)⟩
  | skp x => exact ⟨_, exec_skp (Nat.not_lt.1 (of_ite_eq_none h)), (s.skip_keeps _).mono (by rintro _ rfl; rfl)⟩
  | sknp x => exact ⟨_, exec_sknp (Nat.not_lt.1 (of_ite_eq_none h)), (s.skip_keeps _).mono (by rintro _ rfl; rfl)⟩
  | ldImm x | addImm x | ldReg x | orReg x | andReg x | xorReg x | ldVxDT x =>
    exact ⟨_, rfl, (s.writeV_keeps x _).mono (by rintro _ rfl; exact .inl rfl)⟩
  | addReg x | sub x | subn x =>
    exact ⟨_, rfl, (s.writeV_writeV_keeps x regVF _ _).mono
      (by rintro _ (rfl | rfl); exacts [.inl rfl, .inr (.inl ⟨rfl, rfl⟩)])⟩
  | shr x | shl x =>
    exact ⟨_, rfl, (s.writeV_writeV_keeps regVF x _ _).mono
      (by rintro _ (rfl | rfl); exacts [.inr (.inl ⟨rfl, rfl⟩), .inl rfl])⟩
  | rnd x nn =>
    obtain ⟨t, run, -, -, frame⟩ := randomIsOneMaskedDraw s x nn
    exact ⟨t, run, frame.mono (by rintro _ (rfl | rfl); exacts [.inl rfl, ⟨x, nn, rfl⟩])⟩
  | drw x y n =>
    have inside := of_ite_eq_none h
    refine ⟨_, exec_drw x y (by omega), (s.drawSprite_keeps _ _ _).mono ?_⟩
    rintro _ (rfl | ⟨p, rfl⟩)
    exacts [.inr (.inl ⟨rfl, rfl⟩), .inr ⟨x, y, n, rfl⟩]
  | ldVxK x =>
    cases key : s.lowestKey with
    | some k => exact ⟨_, exec_ldVxK_some x key, (s.writeV_keeps x _).mono (by rintro _ rfl; exact .inl rfl)⟩
    | none => exact ⟨_, exec_ldVxK_none x key, (s.setPc_keeps _).mono (by rintro _ rfl; rfl)⟩
  | ldDTVx x => exact ⟨_, rfl, (s.setDT_keeps _).mono (by rintro _ rfl; exact ⟨x, rfl⟩)⟩
  | ldSTVx x => exact ⟨_, rfl, (s.setST_keeps _).mono (by rintro _ rfl; exact ⟨x, rfl⟩)⟩
  | ldI nnn => exact ⟨_, rfl, (s.setI_keeps _).mono (by rintro _ rfl; exact .inl ⟨nnn, rfl⟩)⟩
  | addI x => exact ⟨_, rfl, (s.setI_keeps _).mono (by rintro _ rfl; exact .inr (.inl ⟨x, rfl⟩))⟩
  | ldF x => exact ⟨_, rfl, (s.setI_keeps _).mono (by rintro _ rfl; exact .inr (.inr ⟨x, rfl⟩))⟩
  | ldB x =>
    obtain ⟨t, run, -, -, -, frame⟩ := (bcdStoresThreeDigits s x).1 (Nat.not_lt.1 (of_ite_eq_none h))
    refine ⟨t, run, frame.mono ?_⟩
    rintro _ ⟨k, hk, rfl⟩
    exact .inl ⟨x, rfl, by omega, by omega⟩
  | stRegs x =>
    obtain ⟨t, run, -, frame⟩ := (storeWritesTheBlock s x).1 (Nat.not_lt.1 (of_ite_eq_none h))
    refine ⟨t, run, frame.mono ?_⟩
    rintro _ ⟨r, hr, rfl⟩
    have := Fin.le_def.1 hr
    exact .inr ⟨x, rfl, by omega, by omega⟩
  | ldRegs x =>
    obtain ⟨t, run, -, frame⟩ := (loadReadsTheBlock s x).1 (Nat.not_lt.1 (of_ite_eq_none h))
    refine ⟨t, run, frame.mono ?_⟩
    rintro _ ⟨r, hr, rfl⟩
    exact .inr (.inr ⟨x, rfl, hr⟩)

/-- Settles O22: the condition of the fault table decides between its fault and a frame without RUN and FAULT. -/
theorem executeFaultsAreTaken : Obligations.ExecuteFaultsAreTaken := by
  intro i s
  refine ⟨fun kind addr h => raises_of_executeFault h, fun h => ?_⟩
  obtain ⟨t, run, frame⟩ := exec_frame h
  exact ⟨t, run, frame .run id, frame .fault id⟩

/-! ### One cycle of a Running block: the fault of the table, or the instruction -/

theorem Fetches.step_eq {s : State} {i : Instr} (h : Fetches s i) : step s = exec i s.advance := by
  obtain ⟨running, inside, decoded⟩ := h
  exact step_decoded running (State.fetchWord_eq_ok.2 ⟨inside, rfl⟩) decoded

/-- The advance touches nothing that a condition of the fault table reads. -/
theorem executeFault_advance (i : Instr) (s : State) : executeFault i s.advance = executeFault i s := by
  cases i <;> rfl

theorem cycleFault_of_past {s : State} (past : s.pc.toNat + 1 > 4095) :
    cycleFault s = some { kind := some .addressOutOfRange, pc := s.pc, word := 0, addr := lowestOffending s.pc } :=
  if_pos past

theorem cycleFault_of_illegal {s : State} {e : DecodeError} (inside : ¬ s.pc.toNat + 1 > 4095)
    (d : decodeWord s.wordAtPc = .error e) :
    cycleFault s = some { kind := some .unknownOpcode, pc := s.pc, word := s.wordAtPc, addr := 0 } := by
  simp only [cycleFault, if_neg inside, d]

theorem cycleFault_of_fetches {s : State} {i : Instr} (h : Fetches s i) :
    cycleFault s = (executeFault i s).map fun f =>
      { kind := some f.1, pc := s.pc, word := s.wordAtPc, addr := f.2 } := by
  obtain ⟨-, inside, decoded⟩ := h
  simp only [cycleFault, if_neg (Nat.not_lt.2 inside), decoded]
  cases executeFault i s <;> rfl

/-- Each fault of a cycle is taken with `pc` at `pc0`, so it changes RUN and FAULT alone (60_exceptions.md R118). -/
theorem step_of_cycleFault {s : State} {f : FaultRecord} (running : s.run = .running) (h : cycleFault s = some f) :
    step s = .next { s with run := .faulted, fault := f } := by
  by_cases past : s.pc.toNat + 1 > 4095
  · obtain rfl := Option.some.inj ((cycleFault_of_past past).symm.trans h)
    exact step_fetch_error running (State.fetchWord_eq_error.2 ⟨past, rfl⟩)
  · have inside := Nat.not_lt.1 past
    cases d : decodeWord s.wordAtPc with
    | error e =>
      obtain rfl := Option.some.inj ((cycleFault_of_illegal past d).symm.trans h)
      exact step_decode_error running (State.fetchWord_eq_ok.2 ⟨inside, rfl⟩) d
    | ok i =>
      have fetches : Fetches s i := ⟨running, inside, d⟩
      rw [cycleFault_of_fetches fetches, Option.map_eq_some_iff] at h
      obtain ⟨⟨kind, addr⟩, raised, rfl⟩ := h
      have back : s.pc + 2 - 2 = s.pc := BitVec.add_sub_cancel _ _
      rw [fetches.step_eq, exec_of_executeFault ((executeFault_advance i s).trans raised), State.raiseFault_eq,
        (encode_of_decodeWord d).1, State.advance_eq, State.setPc_pc, back]
      rfl

theorem fetches_of_cycleFault_eq_none {s : State} (running : s.run = .running) (h : cycleFault s = none) :
    ∃ i, Fetches s i ∧ executeFault i s = none := by
  by_cases past : s.pc.toNat + 1 > 4095
  · cases (cycleFault_of_past past).symm.trans h
  · cases d : decodeWord s.wordAtPc with
    | error e => cases (cycleFault_of_illegal past d).symm.trans h
    | ok i =>
      have fetches : Fetches s i := ⟨running, Nat.not_lt.1 past, d⟩
      exact ⟨i, fetches, Option.map_eq_none_iff.1 ((cycleFault_of_fetches fetches).symm.trans h)⟩

/-- A step that answers `t`: a Faulted block is left as it is, a Running one takes the fault of the table or runs an
instruction that raises none. -/
theorem step_inv {s t : State} (h : step s = .next t) :
    (s.run = .faulted ∧ t = s) ∨
    (s.run = .running ∧ ∃ f, cycleFault s = some f ∧ t = { s with run := .faulted, fault := f }) ∨
    (∃ i, Fetches s i ∧ executeFault i s.advance = none ∧ exec i s.advance = .next t ∧
      KeepsAllBut (Writes i s.advance) s.advance t) := by
  cases running : s.run with
  | faulted => exact .inl ⟨rfl, (eq_of_next (step_faulted running) h).symm⟩
  | running =>
    cases fault : cycleFault s with
    | some f =>
      exact .inr (.inl ⟨rfl, f, rfl, (eq_of_next (step_of_cycleFault running fault) h).symm⟩)
    | none =>
      obtain ⟨i, fetches, raised⟩ := fetches_of_cycleFault_eq_none running fault
      rw [← executeFault_advance] at raised
      obtain ⟨t', run, frame⟩ := exec_frame raised
      obtain rfl := eq_of_next (fetches.step_eq.trans run) h
      exact .inr (.inr ⟨i, fetches, raised, run, frame⟩)

theorem step_next (s : State) : ∃ t, step s = .next t := by
  cases running : s.run with
  | faulted => exact ⟨s, step_faulted running⟩
  | running =>
    cases fault : cycleFault s with
    | some f => exact ⟨_, step_of_cycleFault running fault⟩
    | none =>
      obtain ⟨i, fetches, raised⟩ := fetches_of_cycleFault_eq_none running fault
      obtain ⟨t, run, -⟩ := exec_frame ((executeFault_advance i s).trans raised)
      exact ⟨t, fetches.step_eq.trans run⟩

theorem step_cfg {s t : State} (h : step s = .next t) : t.cfg = s.cfg := by
  obtain ⟨-, rfl⟩ | ⟨-, f, -, rfl⟩ | ⟨i, -, -, -, frame⟩ := step_inv h
  · rfl
  · rfl
  · exact frame .cfg id

/-- Settles O11. -/
theorem everyStepAnswersANextState : Obligations.EveryStepAnswersANextState := by
  intro s
  obtain ⟨t, h⟩ := step_next s
  exact ⟨t, h, step_cfg h⟩

/-- Settles O12: a fault by the table's own record, and without one the frame of the instruction that ran. -/
theorem cycleFaultsExactlyAsListed : Obligations.CycleFaultsExactlyAsListed := by
  intro s running
  obtain ⟨t, h⟩ := step_next s
  refine ⟨t, h, fun f fault => ?_, fun clean => ?_⟩
  · exact eq_of_next h (step_of_cycleFault running fault)
  · obtain ⟨faulted, -⟩ | ⟨-, f, fault, -⟩ | ⟨i, -, -, -, frame⟩ := step_inv h
    · cases running.symm.trans faulted
    · cases clean.symm.trans fault
    · exact ⟨(frame .run id).trans running, frame .fault id⟩

/-- A fault of a cycle changes RUN and FAULT alone. -/
theorem faulted_keeps (s : State) (f : FaultRecord) :
    KeepsAllBut (fun p => p = .run ∨ p = .fault) s { s with run := .faulted, fault := f } := by
  intro p hp
  cases p with
  | run => exact absurd (.inl rfl) hp
  | fault => exact absurd (.inr rfl) hp
  | _ => rfl

/-- Settles O9. -/
theorem fetchPastTheEndFaults : Obligations.FetchPastTheEndFaults := by
  intro s running past
  exact ⟨_, step_of_cycleFault running (cycleFault_of_past past), rfl, rfl, rfl, rfl, lowestOffending_toNat s.pc,
    faulted_keeps s _⟩

/-- Settles O10. -/
theorem illegalWordFaults : Obligations.IllegalWordFaults := by
  intro s running inside illegal
  have fault := cycleFault_of_illegal (Nat.not_lt.2 inside) (decodeWord_of_illegalWord illegal)
  exact ⟨_, step_of_cycleFault running fault, rfl, rfl, rfl, rfl, rfl, faulted_keeps s _⟩

/-! ### Where `pc` goes (10_state.md R18) -/

/-- After the advance a skip stands one or two instructions on, without a wrap (41_control_flow.md R76). -/
theorem State.skip_advance_pc_toNat {s : State} (inside : s.pc.toNat + 1 ≤ 4095) (c : Bool) :
    (s.advance.skip c).pc.toNat = if c then s.pc.toNat + 4 else s.pc.toNat + 2 := by
  have advanced := advance_pc_toNat inside
  rw [skip_pc]
  cases c with
  | false => exact advanced
  | true =>
    refine (BitVec.toNat_add_of_lt ?_).trans ?_
    · rw [advanced]
      show s.pc.toNat + 2 + 2 < 65536
      omega
    · rw [advanced]
      rfl

theorem exec_advance_pc {s t : State} {i : Instr} (inside : s.pc.toNat + 1 ≤ 4095)
    (raised : executeFault i s.advance = none) (run : exec i s.advance = .next t) : t.pc.toNat = pcAfter i s := by
  have advanced := State.advance_pc_toNat inside
  have skipped := State.skip_advance_pc_toNat inside
  cases i with
  | jp nnn =>
    obtain rfl := Host.Outcome.next.inj run
    exact zextNnn_toNat nnn
  | jpV0 nnn =>
    obtain ⟨t', run', value, -, -⟩ := jpV0AddsV0 s.advance nnn
    obtain rfl := eq_of_next run' run
    have := nnn.isLt
    have := (s.readV 0).isLt
    exact value.trans (Nat.mod_eq_of_lt (show nnn.toNat + (s.readV 0).toNat < 65536 by omega))
  | call nnn =>
    have room := of_ite_eq_none raised
    have := s.advance.sp.isLt
    obtain rfl := eq_of_next (exec_call nnn (by omega)) run
    exact zextNnn_toNat nnn
  | ret =>
    have nonempty : 0 < s.sp.val := Nat.pos_of_ne_zero (of_ite_eq_none raised)
    obtain rfl := eq_of_next (exec_ret (s := s.advance) nonempty) run
    rw [pcAfter, dif_pos nonempty]
    rfl
  | seImm | seReg =>
    obtain rfl := Host.Outcome.next.inj run
    exact (skipped _).trans (if_congr decide_eq_true_iff rfl rfl)
  | sneImm | sneReg =>
    obtain rfl := Host.Outcome.next.inj run
    exact ((skipped _).trans (if_congr decide_eq_true_iff rfl rfl)).trans (ite_not _ _ _)
  | skp x =>
    have key := Nat.not_lt.1 (of_ite_eq_none raised)
    obtain rfl := eq_of_next (exec_skp key) run
    exact skipped _
  | sknp x =>
    have key := Nat.not_lt.1 (of_ite_eq_none raised)
    obtain rfl := eq_of_next (exec_sknp key) run
    rw [skipped, pcAfter]
    show (if (!s.keyOf x) = true then _ else _) = _
    cases s.keyOf x <;> rfl
  | ldVxK x =>
    cases key : s.advance.lowestKey with
    | some k =>
      obtain rfl := eq_of_next (exec_ldVxK_some x key) run
      obtain ⟨hk, pressed, -⟩ := State.lowestKey_eq_some.1 key
      rw [pcAfter, if_pos ⟨k, hk, pressed⟩]
      exact advanced
    | none =>
      obtain rfl := eq_of_next (exec_ldVxK_none x key) run
      have dark := State.lowestKey_eq_none.1 key
      rw [pcAfter, if_neg fun ⟨k, hk, pressed⟩ => Bool.false_ne_true ((dark k hk).symm.trans pressed)]
      exact congrArg BitVec.toNat (BitVec.add_sub_cancel s.pc 2)
  | _ =>
    obtain ⟨t', run', frame⟩ := exec_frame raised
    obtain rfl := eq_of_next run' run
    exact (congrArg BitVec.toNat (frame .pc Bool.false_ne_true)).trans advanced

theorem Fetches.unique {s : State} {i j : Instr} (h : Fetches s i) (h' : Fetches s j) : i = j := by
  obtain ⟨-, -, d⟩ := h
  obtain ⟨-, -, d'⟩ := h'
  exact Except.ok.inj (d.symm.trans d')

/-- Settles O13. -/
theorem pcAfterACycle : Obligations.PcAfterACycle := by
  intro s t i fetches clean h
  have ⟨running, inside, _⟩ := fetches
  obtain ⟨faulted, -⟩ | ⟨-, f, fault, -⟩ | ⟨j, fetches', raised, run, -⟩ := step_inv h
  · cases running.symm.trans faulted
  · cases clean.symm.trans fault
  · obtain rfl := fetches.unique fetches'
    exact exec_advance_pc inside raised run

/-- Settles O14: a jump to `pc` itself puts the advanced `pc` back. -/
theorem endOfRunStandsStill : Obligations.EndOfRunStandsStill := by
  intro s h
  cases running : s.run with
  | faulted => exact step_faulted running
  | running =>
    simp only [endOfRun, running, Bool.or_eq_true, Bool.and_eq_true, decide_eq_true_eq] at h
    obtain h | ⟨⟨inside, family⟩, target⟩ := h
    · cases h
    · have decoded : decodeWord s.wordAtPc = .ok (.jp (fieldNNN s.wordAtPc)) := by
        simp only [decodeWord, family]
      rw [Fetches.step_eq ⟨running, inside, decoded⟩]
      show Host.Outcome.next (s.advance.setPc (zextNnn (fieldNNN s.wordAtPc))) = _
      rw [target, State.advance_eq, State.setPc_setPc, State.setPc_self]

/-! ### What a cycle writes -/

/-- The advance touches nothing that says which parts an instruction writes. -/
theorem writes_advance (i : Instr) (s : State) (p : Part) : Writes i s.advance p = Writes i s p := by
  cases p <;> rfl

theorem samePart_trans {s t u : State} {p : Part} (h : SamePart s t p) (h' : SamePart t u p) : SamePart s u p := by
  cases p <;> exact Eq.trans h' h

theorem KeepsAllBut.trans {first second : Part → Prop} {s t u : State} (h : KeepsAllBut first s t)
    (h' : KeepsAllBut second t u) : KeepsAllBut (fun p => first p ∨ second p) s u :=
  fun p hp => samePart_trans (h p fun c => hp (.inl c)) (h' p fun c => hp (.inr c))

/-- A cycle that fetches `i` writes what `i` may write, besides `pc`, RUN and FAULT. -/
theorem Fetches.step_keeps {s t : State} {i : Instr} (fetches : Fetches s i) (h : step s = .next t) :
    KeepsAllBut (fun p => Writes i s p ∨ p = .pc ∨ p = .run ∨ p = .fault) s t := by
  obtain ⟨faulted, -⟩ | ⟨-, f, -, rfl⟩ | ⟨j, fetches', -, -, frame⟩ := step_inv h
  · obtain ⟨running, -, -⟩ := fetches
    cases running.symm.trans faulted
  · exact (faulted_keeps s f).mono fun p hp => .inr (.inr hp)
  · obtain rfl := fetches.unique fetches'
    refine ((s.setPc_keeps _).trans frame).mono ?_
    rintro p (rfl | written)
    · exact .inr (.inl rfl)
    · exact .inl (writes_advance i s p ▸ written)

/-- Settles O19. -/
theorem registersAreWrittenOnlyAsListed : Obligations.RegistersAreWrittenOnlyAsListed :=
  fun s t i fetches h r unwritten => fetches.step_keeps h (.v r) (by simpa [Writes] using unwritten)

/-- Settles O20: the keys are equal because each of the 16 is kept. -/
theorem specialRegistersAreWrittenOnlyAsListed : Obligations.SpecialRegistersAreWrittenOnlyAsListed := by
  intro s t i fetches h
  have keeps := fetches.step_keeps h
  refine ⟨fun ldI addI ldF => keeps .i ?_, fun call => ⟨fun k => keeps (.stack k) ?_, fun ret => keeps .sp ?_⟩,
    fun ldDT => keeps .dt ?_, fun ldST => keeps .st ?_,
    BitVec.eq_of_getLsbD_eq fun k _ => keeps (.key k) ?_, fun rnd => keeps .draws ?_⟩
  all_goals simp_all [Writes]

/-- Settles O21. -/
theorem memoryAndDisplayAreWrittenOnlyAsListed : Obligations.MemoryAndDisplayAreWrittenOnlyAsListed := by
  intro s t i fetches h
  have keeps := fetches.step_keeps h
  exact ⟨fun a unwritten => keeps (.byte a) (by simpa [Writes] using unwritten),
    fun cls drw p => keeps (.pixel p) (by simp [Writes, cls, drw])⟩

end Sys2Proof.Machine
end

section
/-! PROOFS. The invariant: it holds after reset, and every step keeps it. -/

namespace Sys2Proof.Machine

theorem inv_resetWith (cfg : Config) : Inv (State.resetWith cfg) where
  memory := Memory.nil_wf cfg
  pc_le := by
    show 512 ≤ 0x10FE
    decide
  stack_le := fun k => by
    have zero : (State.resetWith cfg).stackAt k = 0 := Vector.getElem_replicate _
    rw [zero]
    exact Nat.zero_le _
  running := fun _ => rfl
  faulted := fun h => nomatch h

/-- Settles O15. -/
theorem resetMeetsTheInvariant : Obligations.ResetMeetsTheInvariant :=
  ⟨inv_resetWith, inv_resetWith defaultConfig⟩

/-- An operation that leaves `pc`, the stack, RUN and FAULT alone keeps the invariant, if it keeps memory canonical. -/
theorem Inv.congr {s t : State} (inv : Inv s) (memory : Memory.wf t.cfg t.mem) (pc : t.pc = s.pc)
    (stack : t.stack = s.stack) (run : t.run = s.run) (fault : t.fault = s.fault) : Inv t where
  memory := memory
  pc_le := pc ▸ inv.pc_le
  stack_le := fun k => by
    have same : t.stackAt k = s.stackAt k := congrArg (fun v : Vector Word 16 => v[k.val]) stack
    exact same ▸ inv.stack_le k
  running := fun h => fault ▸ inv.running (run ▸ h)
  faulted := fun h => by
    rw [fault, pc]
    exact inv.faulted (run ▸ h)

/-- A fault recorded at the `pc` it leaves keeps the invariant (60_exceptions.md R117, R118). -/
theorem Inv.takeFault {s : State} (inv : Inv s) {f : FaultRecord} (kind : f.kind ≠ none) (pc : f.pc = s.pc) :
    Inv { s with run := .faulted, fault := f } where
  memory := inv.memory
  pc_le := inv.pc_le
  stack_le := inv.stack_le
  running := fun h => nomatch h
  faulted := fun _ => ⟨kind, pc⟩

/-! ### What an instruction does to memory, the stack and `pc` -/

/-- An instruction that raises no fault leaves memory alone or stores bytes inside it (20_memory.md R45). -/
theorem exec_mem {i : Instr} {s t : State} (raised : executeFault i s = none) (run : exec i s = .next t) :
    t.mem = s.mem ∨ ∃ bs, s.i.toNat + bs.length ≤ 4096 ∧ t.mem = (s.writeBytes s.i.toNat bs).mem := by
  cases i with
  | ldB x =>
    have inside := Nat.not_lt.1 (of_ite_eq_none raised)
    obtain rfl := eq_of_next (exec_ldB x inside) run
    exact .inr ⟨_, by rw [bcdDigits_length]; omega, rfl⟩
  | stRegs x =>
    have inside := Nat.not_lt.1 (of_ite_eq_none raised)
    obtain rfl := eq_of_next (exec_stRegs inside) run
    exact .inr ⟨_, by rw [State.regBlock_length]; omega, rfl⟩
  | ldRegs x =>
    have inside := Nat.not_lt.1 (of_ite_eq_none raised)
    obtain rfl := eq_of_next (exec_ldRegs inside) run
    exact .inl (by rw [State.loadBlock_eq])
  | ret =>
    obtain rfl := eq_of_next (exec_ret (Nat.pos_of_ne_zero (of_ite_eq_none raised))) run
    exact .inl rfl
  | call nnn =>
    have room := of_ite_eq_none raised
    have := s.sp.isLt
    obtain rfl := eq_of_next (exec_call nnn (by omega)) run
    exact .inl rfl
  | drw x y n =>
    have inside := of_ite_eq_none raised
    obtain rfl := eq_of_next (exec_drw x y (by omega)) run
    exact .inl rfl
  | skp x =>
    obtain rfl := eq_of_next (exec_skp (Nat.not_lt.1 (of_ite_eq_none raised))) run
    exact .inl (by rw [State.skip_eq]; rfl)
  | sknp x =>
    obtain rfl := eq_of_next (exec_sknp (Nat.not_lt.1 (of_ite_eq_none raised))) run
    exact .inl (by rw [State.skip_eq]; rfl)
  | seImm | sneImm | seReg | sneReg =>
    obtain rfl := Host.Outcome.next.inj run
    exact .inl (by rw [State.skip_eq]; rfl)
  | ldVxK x =>
    cases key : s.lowestKey with
    | some k =>
      obtain rfl := eq_of_next (exec_ldVxK_some x key) run
      exact .inl rfl
    | none =>
      obtain rfl := eq_of_next (exec_ldVxK_none x key) run
      exact .inl rfl
  | _ =>
    obtain rfl := Host.Outcome.next.inj run
    exact .inl rfl

/-- A stack entry is kept, or gets the `pc` that CALL pushes. -/
theorem exec_stackAt {i : Instr} {s t : State} (raised : executeFault i s = none) (run : exec i s = .next t)
    (k : Fin 16) : t.stackAt k = s.stackAt k ∨ t.stackAt k = s.pc := by
  obtain ⟨t', run', frame⟩ := exec_frame raised
  obtain rfl := eq_of_next run' run
  by_cases call : ∃ nnn, i = .call nnn
  · obtain ⟨nnn, rfl⟩ := call
    have room := of_ite_eq_none raised
    have := s.sp.isLt
    obtain rfl := eq_of_next (exec_call nnn (by omega)) run
    rw [State.setPc_stackAt, State.stackAt_set]
    split
    · exact .inr rfl
    · exact .inl rfl
  · exact .inl (frame (.stack k) call)

/-- The highest `pc` is that of BNNN with both numbers at their highest (10_state.md R20). -/
theorem pcAfter_le {s : State} (inv : Inv s) (inside : s.pc.toNat + 1 ≤ 4095) (i : Instr) :
    pcAfter i s ≤ 0x10FE := by
  cases i with
  | jp nnn | call nnn =>
    have := nnn.isLt
    show nnn.toNat ≤ _
    omega
  | jpV0 nnn =>
    have := nnn.isLt
    have := (s.readV regV0).isLt
    show nnn.toNat + (s.readV regV0).toNat ≤ _
    omega
  | ret =>
    rw [pcAfter]
    split
    · exact Nat.le_trans (inv.stack_le _) (by decide)
    · omega
  | seImm | sneImm | seReg | sneReg | skp | sknp | ldVxK =>
    rw [pcAfter]
    split <;> omega
  | _ =>
    show s.pc.toNat + 2 ≤ _
    omega

theorem Inv.exec {i : Instr} {s t : State} (inv : Inv s) (fetches : Fetches s i)
    (raised : executeFault i s.advance = none) (run : exec i s.advance = .next t) : Inv t := by
  obtain ⟨running, inside, -⟩ := fetches
  obtain ⟨t', run', frame⟩ := exec_frame raised
  obtain rfl := eq_of_next run' run
  have cfg : t'.cfg = s.cfg := frame .cfg id
  have still : t'.run = .running := (frame .run id).trans running
  refine ⟨?_, ?_, fun k => ?_, fun _ => (frame .fault id).trans (inv.running running), fun h => ?_⟩
  · rw [cfg]
    obtain same | ⟨bs, fits, stored⟩ := exec_mem raised run
    · exact same ▸ inv.memory
    · exact stored ▸ State.writeBytes_wf (s := s.advance) inv.memory fits
  · rw [exec_advance_pc inside raised run]
    exact pcAfter_le inv inside i
  · obtain kept | pushed := exec_stackAt raised run k
    · exact kept ▸ inv.stack_le k
    · rw [pushed, State.advance_pc_toNat inside]
      omega
  · cases still.symm.trans h

theorem cycleFault_kind_pc {s : State} {f : FaultRecord} (h : cycleFault s = some f) :
    f.kind ≠ none ∧ f.pc = s.pc := by
  unfold cycleFault at h
  split at h
  · obtain rfl := Option.some.inj h
    exact ⟨nofun, rfl⟩
  · split at h
    · obtain rfl := Option.some.inj h
      exact ⟨nofun, rfl⟩
    · split at h
      · obtain rfl := Option.some.inj h
        exact ⟨nofun, rfl⟩
      · cases h

/-- Settles O16: the three ways of a step, each by its own rule. -/
theorem everyStepKeepsTheInvariant : Obligations.EveryStepKeepsTheInvariant := by
  intro s t inv h
  obtain ⟨-, rfl⟩ | ⟨-, f, fault, rfl⟩ | ⟨i, fetches, raised, run, -⟩ := step_inv h
  · exact inv
  · obtain ⟨kind, pc⟩ := cycleFault_kind_pc fault
    exact inv.takeFault kind pc
  · exact inv.exec fetches raised run

end Sys2Proof.Machine
end

section
/-! PROOFS. The host's operations: the statements of 40_cycle.md, 60_exceptions.md and 70_reset_and_hazards.md on them,
and the invariant along every schedule. -/

namespace Sys2Proof.Machine

/-! ### Each operation in each run state -/

namespace State

theorem status_running {s : State} (h : s.run = .running) : s.status = none := by
  simp only [status, h]

theorem status_faulted {s : State} (h : s.run = .faulted) : s.status = s.fault.kind := by
  simp only [status, h]

theorem tick_running {s : State} (h : s.run = .running) : s.tick = (s.setDT (tickDown s.dt)).setST (tickDown s.st) := by
  simp only [tick, h]

theorem tick_faulted {s : State} (h : s.run = .faulted) : s.tick = s := by
  simp only [tick, h]

theorem loadRom_faulted {s : State} (h : s.run = .faulted) (rom : List Byte) : s.loadRom rom = s := by
  simp only [loadRom, h]

theorem loadRom_too_large {s : State} (h : s.run = .running) {rom : List Byte} (large : 512 + rom.length > 4096) :
    s.loadRom rom = s.takeFault .programTooLarge s.pc 0 0 := by
  simp only [loadRom, h, if_pos large]

/-- The block with its program region back at 0, as LOAD_ROM stores into it. -/
def clearProgram (s : State) : State := { s with mem := Memory.clearProgram s.mem }

theorem readByte_clearProgram (s : State) (a : Nat) :
    s.clearProgram.readByte a = if a < 512 then s.readByte a else 0 :=
  Memory.read_clearProgram s.cfg s.mem a

theorem loadRom_fits {s : State} (h : s.run = .running) {rom : List Byte} (fits : 512 + rom.length ≤ 4096) :
    s.loadRom rom = s.clearProgram.writeBytes 512 rom := by
  simp only [loadRom, h, if_neg (Nat.not_lt.2 fits), clearProgram]

end State

/-- Settles O52. -/
theorem tickCountsDownToZero : Obligations.TickCountsDownToZero := by
  intro s
  refine ⟨fun running => ⟨s.tick, ?_, ?_, ?_, ?_⟩, fun faulted => ?_⟩
  · have still : s.tick.run = .running := by rw [State.tick_running running]; exact running
    rw [hostStep, State.status_running still]
  · rw [State.tick_running running]
    exact tickDown_toNat s.dt
  · rw [State.tick_running running]
    exact tickDown_toNat s.st
  · rw [State.tick_running running]
    exact (s.setDT_keeps _).trans (State.setST_keeps _ _)
  · rw [hostStep, State.tick_faulted faulted, State.status_faulted faulted]

theorem State.setKey_fst_keyPressed (s : State) {k : Nat} (hk : k ≤ 15) (pressed : Bool) (j : Nat) :
    (s.setKey k pressed).1.keyPressed j = if j = k then pressed else s.keyPressed j := by
  rw [setKey, if_neg (Nat.not_lt.2 hk)]
  exact setKeyBit_getLsbD s.keys hk j pressed

/-- Settles O53. -/
theorem setKeyWritesOneLevel : Obligations.SetKeyWritesOneLevel := by
  intro s k pressed
  refine ⟨fun hk => ⟨(s.setKey k pressed).1, ?_, ?_, fun p hp => ?_⟩, fun hk => ?_⟩
  · rw [hostStep, State.setKey, if_neg (Nat.not_lt.2 hk)]
  · rw [s.setKey_fst_keyPressed hk, if_pos rfl]
  · cases p with
    | key j => exact (s.setKey_fst_keyPressed hk pressed j).trans (if_neg fun e => hp (congrArg Part.key e))
    | _ =>
      rw [State.setKey, if_neg (Nat.not_lt.2 hk)]
      rfl
  · rw [hostStep, State.setKey, if_pos hk]

/-- A program that fits: its bytes, zeros after it, and nothing below 512 or outside memory (20_memory.md R50). -/
theorem loadRom_spec {s : State} (running : s.run = .running) {rom : List Byte} (fits : 512 + rom.length ≤ 4096) :
    (∀ k b, rom[k]? = some b → (s.loadRom rom).readByte (512 + k) = b) ∧
    (∀ a, 512 + rom.length ≤ a → a ≤ 4095 → (s.loadRom rom).readByte a = 0) ∧
    KeepsAllBut (fun p => ∃ a, 512 ≤ a ∧ p = .byte a) s (s.loadRom rom) := by
  rw [State.loadRom_fits running fits]
  refine ⟨fun k b h => State.readByte_writeBytes_of_getElem? _ 512 h, fun a after _ => ?_, fun p hp => ?_⟩
  · rw [State.readByte_writeBytes, if_pos (by omega), List.getElem?_eq_none (by omega), Option.getD_none,
      State.readByte_clearProgram, if_neg (by omega)]
  · cases p with
    | byte a =>
      have below : ¬ 512 ≤ a := fun le => hp ⟨a, le, rfl⟩
      rw [SamePart, State.readByte_writeBytes, if_neg below, State.readByte_clearProgram,
        if_pos (Nat.lt_of_not_le below)]
    | _ =>
      rw [State.writeBytes_eq]
      rfl

/-- Settles O54. -/
theorem loadRomReplacesTheProgramRegion : Obligations.LoadRomReplacesTheProgramRegion := by
  intro s rom
  refine ⟨fun running fits => ?_, fun running large => ?_, fun faulted => ?_⟩
  · obtain ⟨program, zeros, frame⟩ := loadRom_spec running fits
    have still : (s.loadRom rom).run = .running := (frame .run (by simp)).trans running
    exact ⟨s.loadRom rom, by rw [hostStep, State.status_running still], program, zeros, frame⟩
  · have loaded := State.loadRom_too_large running large
    exact ⟨_, by rw [hostStep, loaded]; rfl, rfl, rfl, rfl, rfl, rfl, faulted_keeps s _⟩
  · rw [hostStep, State.loadRom_faulted faulted, State.status_faulted faulted]

theorem hostStep_cycle {s t : State} (h : step s = .next t) : hostStep .cycle s = .next (t, .status t.status) := by
  rw [hostStep, h, withStatus]

/-- Settles O56: the three operations that answer the recorded kind leave the state as it is, and SET_KEY writes a key
alone. -/
theorem faultedIsStickyUntilReset : Obligations.FaultedIsStickyUntilReset := by
  intro s faulted
  have cycle : hostStep .cycle s = .next (s, .status s.fault.kind) := by
    rw [hostStep_cycle (step_faulted faulted), State.status_faulted faulted]
  have tick := (tickCountsDownToZero s).2 faulted
  have load (rom : List Byte) : hostStep (.loadRom rom) s = .next (s, .status s.fault.kind) := by
    rw [hostStep, State.loadRom_faulted faulted, State.status_faulted faulted]
  refine ⟨cycle, tick, load, fun op t r ne h => ?_, ⟨_, rfl, rfl⟩⟩
  have unchanged {r'} (e : hostStep op s = .next (s, r')) : t.run = .faulted ∧ t.fault = s.fault := by
    obtain ⟨rfl, -⟩ := Prod.mk.inj (eq_of_next e h)
    exact ⟨faulted, rfl⟩
  cases op with
  | reset => exact absurd rfl ne
  | loadRom rom => exact unchanged (load rom)
  | cycle => exact unchanged cycle
  | tick => exact unchanged tick
  | getDisplay | observe => exact unchanged rfl
  | setKey k pressed =>
    obtain ⟨rfl, -⟩ := Prod.mk.inj (Host.Outcome.next.inj h)
    rw [State.setKey]
    split <;> exact ⟨faulted, rfl⟩

/-- Settles O57: memory lists nothing, so each byte reads as its reset contents (10_state.md R32). -/
theorem resetSetsEveryPieceOfState : Obligations.ResetSetsEveryPieceOfState := by
  intro s
  exact ⟨s.resetBlock, rfl, rfl, fun _ => Vector.getElem_replicate _, rfl, rfl, fun _ => Vector.getElem_replicate _,
    rfl, rfl, fun _ => BitVec.getLsbD_zero, fun _ => BitVec.getLsbD_zero, fun a => dif_pos a.isLt,
    fun _ high _ => dif_neg (Nat.not_lt.2 high), rfl, rfl, rfl, rfl, rfl, rfl, rfl⟩

/-- Settles O58: RESET puts `pc` at 512, where LOAD_ROM puts the program's first byte. -/
theorem bootFetchesTheFirstWord : Obligations.BootFetchesTheFirstWord := by
  intro s hi lo rest len
  have fits : 512 + (hi :: lo :: rest).length ≤ 4096 := by simp only [List.length_cons]; omega
  obtain ⟨program, -, frame⟩ := loadRom_spec (s := s.resetBlock) rfl fits
  have pc : (s.resetBlock.loadRom (hi :: lo :: rest)).pc = 0x200 := frame .pc (by simp)
  have pc' : (s.resetBlock.loadRom (hi :: lo :: rest)).pc.toNat = 512 := congrArg BitVec.toNat pc
  refine ⟨_, _, rfl, frame .run (by simp), pc', State.fetchWord_eq_ok.2 ⟨by omega, rfl⟩, ?_⟩
  rw [wordOfBytes_toNat, pc', program 0 hi rfl, program 1 lo rfl]

/-! ### The invariant along every schedule -/

namespace State

theorem tick_cfg (s : State) : s.tick.cfg = s.cfg := by
  unfold tick
  split <;> rfl

theorem setKey_fst_cfg (s : State) (k : Nat) (pressed : Bool) : (s.setKey k pressed).1.cfg = s.cfg := by
  unfold setKey
  split <;> rfl

theorem loadRom_cfg (s : State) (rom : List Byte) : (s.loadRom rom).cfg = s.cfg := by
  unfold loadRom
  split
  · rfl
  · split
    · rfl
    · rw [writeBytes_eq]

end State

theorem Inv.loadRom {s : State} (inv : Inv s) (rom : List Byte) : Inv (s.loadRom rom) := by
  cases running : s.run with
  | faulted =>
    rw [State.loadRom_faulted running]
    exact inv
  | running =>
    by_cases large : 512 + rom.length > 4096
    · rw [State.loadRom_too_large running large]
      exact inv.takeFault (f := ⟨some .programTooLarge, s.pc, 0, 0⟩) nofun rfl
    · have fits := Nat.not_lt.1 large
      have cleared : Memory.wf s.clearProgram.cfg s.clearProgram.mem := Memory.filter_wf inv.memory _
      rw [State.loadRom_fits running fits]
      have wf := State.writeBytes_wf cleared fits
      rw [State.writeBytes_eq]
      exact inv.congr wf rfl rfl rfl rfl

theorem Inv.tick {s : State} (inv : Inv s) : Inv s.tick := by
  cases running : s.run with
  | faulted =>
    rw [State.tick_faulted running]
    exact inv
  | running =>
    rw [State.tick_running running]
    exact inv.congr inv.memory rfl rfl rfl rfl

theorem Inv.setKey {s : State} (inv : Inv s) (k : Nat) (pressed : Bool) : Inv (s.setKey k pressed).1 := by
  rw [State.setKey]
  split
  · exact inv
  · exact inv.congr inv.memory rfl rfl rfl rfl

/-- Every operation answers a state with the same parameters, and keeps the invariant where it held. -/
theorem hostStep_spec (op : HostOp) (s : State) :
    ∃ t r, hostStep op s = .next (t, r) ∧ t.cfg = s.cfg ∧ (Inv s → Inv t) := by
  cases op with
  | cycle =>
    obtain ⟨t, run⟩ := step_next s
    exact ⟨t, _, hostStep_cycle run, step_cfg run, fun inv => everyStepKeepsTheInvariant s t inv run⟩
  | reset => exact ⟨_, _, rfl, rfl, fun _ => (inv_resetWith s.cfg).congr (Memory.nil_wf s.cfg) rfl rfl rfl rfl⟩
  | loadRom rom => exact ⟨_, _, rfl, s.loadRom_cfg rom, fun inv => inv.loadRom rom⟩
  | tick => exact ⟨_, _, rfl, s.tick_cfg, Inv.tick⟩
  | setKey k pressed => exact ⟨_, _, rfl, s.setKey_fst_cfg k pressed, fun inv => inv.setKey k pressed⟩
  | getDisplay | observe => exact ⟨s, _, rfl, rfl, id⟩

/-- Settles O17. -/
theorem everyHostOperationKeepsTheInvariant : Obligations.EveryHostOperationKeepsTheInvariant := by
  intro op s t r inv h
  obtain ⟨t', r', run, -, keeps⟩ := hostStep_spec op s
  obtain ⟨rfl, -⟩ := Prod.mk.inj (eq_of_next run h)
  exact keeps inv

/-- Settles O18, by induction on the schedule. -/
theorem everyScheduleRunsAndKeepsTheInvariant : Obligations.EveryScheduleRunsAndKeepsTheInvariant := by
  intro ops
  induction ops with
  | nil => exact fun s => ⟨s, rfl, rfl, id⟩
  | cons op ops ih =>
    intro s
    obtain ⟨t, r, first, cfg, keeps⟩ := hostStep_spec op s
    obtain ⟨u, rest, cfg', keeps'⟩ := ih t
    refine ⟨u, ?_, cfg'.trans cfg, keeps' ∘ keeps⟩
    rw [hostRun, first]
    exact rest

/-! ### The stand-in for a loaded program (log 7) -/

theorem decodeWord_of_decodeTableWord {w : Nat} {i : Instr} (h : decodeTableWord 16 w = some i) :
    decodeWord (BitVec.ofNat 16 (w % 2 ^ 16)) = .ok i := by
  cases d : decodeWord (BitVec.ofNat 16 (w % 2 ^ 16)) with
  | ok j =>
    simp only [decodeTableWord, decode, wordOfBytes_high_low, d, Option.some.injEq] at h
    exact congrArg Except.ok h
  | error e =>
    simp only [decodeTableWord, decode, wordOfBytes_high_low, d] at h
    cases h

/-- A Running block with a word stored at a `pc` it can fetch from fetches that word. -/
theorem fetches_writeBytes {s : State} {w : Word} {i : Instr} (running : s.run = .running)
    (inside : s.pc.toNat + 1 ≤ 4095) (decoded : decodeWord w = .ok i) :
    Fetches (s.writeBytes s.pc.toNat [highByte w, lowByte w]) i := by
  have word : State.wordAtPc (s.writeBytes s.pc.toNat [highByte w, lowByte w]) = w := by
    have high := s.readByte_writeBytes_of_getElem? s.pc.toNat (bs := [highByte w, lowByte w]) (k := 0) rfl
    have low := s.readByte_writeBytes_of_getElem? s.pc.toNat (bs := [highByte w, lowByte w]) (k := 1) rfl
    exact (congrArg₂ wordOfBytes high low).trans (wordOfBytes_high_low w)
  exact ⟨running, inside, word.symm ▸ decoded⟩

/-- What `withFetchWord` stores into: a Running block that can fetch, and the block itself if it is one. -/
theorem withFetchWord_spec (s : State) (w : Nat) : ∃ t : State, t.run = .running ∧ t.pc.toNat + 1 ≤ 4095 ∧
    s.withFetchWord 16 w = t.writeBytes t.pc.toNat
      [highByte (BitVec.ofNat 16 (w % 2 ^ 16)), lowByte (BitVec.ofNat 16 (w % 2 ^ 16))] ∧
    (s.run = .running → s.pc.toNat + 1 ≤ 4095 → t = s) := by
  cases running : s.run with
  | running =>
    cases fetchable : accessError s.pc 2 with
    | none =>
      have inside := accessError_eq_none.1 fetchable
      exact ⟨s, running, by omega, by simp only [State.withFetchWord, running, fetchable], fun _ _ => rfl⟩
    | some a =>
      obtain ⟨⟨-, past⟩, -⟩ := accessError_eq_some.1 fetchable
      exact ⟨s.setPc 0x200, running, show 512 + 1 ≤ 4095 by decide,
        by simp only [State.withFetchWord, running, fetchable], fun _ inside => absurd inside (by omega)⟩
  | faulted =>
    cases fetchable : accessError s.pc 2 with
    | none =>
      have inside := accessError_eq_none.1 fetchable
      exact ⟨{ s with run := .running, fault := noFaultRecord }, rfl, show s.pc.toNat + 1 ≤ 4095 by omega,
        by simp only [State.withFetchWord, running, fetchable], nofun⟩
    | some a =>
      exact ⟨State.setPc { s with run := .running, fault := noFaultRecord } 0x200, rfl,
        show 512 + 1 ≤ 4095 by decide, by simp only [State.withFetchWord, running, fetchable], nofun⟩

/-- Settles O59. -/
theorem storedWordIsRunNext : Obligations.StoredWordIsRunNext := by
  intro s w i h
  obtain ⟨t, running, inside, stored, same⟩ := withFetchWord_spec s w
  refine ⟨?_, fun running inside => ?_⟩
  · rw [stored]
    exact (fetches_writeBytes running inside (decodeWord_of_decodeTableWord h)).step_eq
  · obtain rfl := same running inside
    rw [stored]
    refine (State.writeBytes_keeps _ _ _).mono ?_
    rintro p ⟨n, low, high, rfl⟩
    simp only [List.length_cons, List.length_nil, Nat.reduceAdd] at high
    obtain rfl | rfl : n = t.pc.toNat ∨ n = t.pc.toNat + 1 := by omega
    · exact .inl rfl
    · exact .inr rfl

end Sys2Proof.Machine
end
